-- ==== Sys2Proof/Word.lean ====
section
/-! DEFINITION. The words of the bit cursor: 64-bit command words, registers and response data, and 8-bit buffer bytes
(30_encoding.md R44, 10_state.md R17 to R19). -/

namespace Sys2Proof

/-- A 64-bit command word, register or response datum (30_encoding.md R44, R60; 10_state.md R18, R19). -/
abbrev Word := BitVec 64

/-- One byte of the buffer (10_state.md R17). -/
abbrev Byte := BitVec 8

end Sys2Proof
end

