-- ==== Sys2Proof/Config.lean ====
section
/-! DEFINITION. The implementation parameters of 00_scope.md R6, and the free values the spec leaves open. -/

namespace Sys2Proof.Config

/-- `W_MIN`, the smallest field width (00_scope.md R6). -/
def wMin : Nat := 1

/-- `W_MAX`, the largest field width of READ and WRITE (00_scope.md R6). -/
def wMax : Nat := 32

/-- `SEEK_W`, the width of the signed SEEK delta (00_scope.md R6). -/
def seekW : Nat := 32

/-- The bound of `BUF_CAP`: `BUF_CAP * 8 < 2^64`, that is `BUF_CAP < 2^61` (00_scope.md R6). -/
abbrev capLimit : Nat := 2 ^ 61

/-- The capacity of the machine `State.reset` describes: the largest value 00_scope.md R6 admits, the block nearest the
source's unbounded buffer (42_bit_field_writer.md R76). `BUF_CAP` is OPEN in the spec; a machine of any other capacity is
`State.resetWith`, and every statement holds for every capacity.
DESIGN CHOICE, unsafe for a claim about `State.reset` alone: log entry 3. -/
def bufCap : Fin capLimit := ⟨2 ^ 61 - 1, by decide⟩

/-- What `RSP_STATUS` holds outside RESP, on the n-th time it is left open (10_state.md R25: unspecified, a model gives it
no value). DESIGN CHOICE, safe: log entry 4. -/
opaque freeRspStatus : Nat → BitVec 3

/-- What `RSP_DATA` holds outside RESP, on the n-th time it is left open (10_state.md R25).
DESIGN CHOICE, safe: log entry 4. -/
opaque freeRspData : Nat → Word

end Sys2Proof.Config
end

