-- ==== Sys2Proof/Syntax.lean ====
section
/-! DEFINITION. The six commands (30_encoding.md R54). -/

namespace Sys2Proof

/-- A command with its operands, as decoding gives it (30_encoding.md R55). -/
inductive Instr
  /-- READ ct: consume a `ct`-bit field (41_bit_field_reader.md R63). -/
  | read (ct : Nat)
  /-- WRITE ct, value: write the low `ct` bits of the 32-bit value (42_bit_field_writer.md R71). -/
  | write (ct : Nat) (value : BitVec 32)
  /-- SEEK delta: move the bit index by a signed number of bits (43_bit_cursor_engine.md R83). -/
  | seek (delta : Int)
  /-- INDEX: return the bit index (43_bit_cursor_engine.md R87). -/
  | index
  /-- CLEAR: bind a new empty buffer (43_bit_cursor_engine.md R89). -/
  | clear
  /-- APPEND byte: add one byte at the tail (43_bit_cursor_engine.md R90). -/
  | append (byte : Byte)
  deriving DecidableEq, Repr

end Sys2Proof
end

