-- ==== Sys2Proof/WellFormed.lean ====
section
/-! DEFINITION. The operand ranges of the commands (30_encoding.md R47, R48, R61): the instructions some word spells. -/

namespace Sys2Proof

/-- `ct` is a legal field width, `W_MIN <= ct <= W_MAX` (30_encoding.md R47). -/
def widthOk (ct : Nat) : Bool := decide (Config.wMin ≤ ct ∧ ct ≤ Config.wMax)

/-- `delta` fits the signed SEEK field, `-2^31 <= delta < 2^31` (30_encoding.md R48). -/
def deltaOk (delta : Int) : Bool :=
  decide (-(2 ^ (Config.seekW - 1) : Int) ≤ delta ∧ delta < 2 ^ (Config.seekW - 1))

/-- The operands lie in the ranges of 30_encoding.md R61. A WRITE value has no range of its own beyond its 32 bits: bits at
and above `ct` are ignored, not reserved (R48). -/
def Instr.wf : Instr → Bool
  | .read ct => widthOk ct
  | .write ct _ => widthOk ct
  | .seek delta => deltaOk delta
  | .index => true
  | .clear => true
  | .append _ => true

end Sys2Proof
end

