-- ==== Sys2Proof/Decode.lean ====
section
/-! DEFINITION. The command encoding of 30_encoding.md: the decoder, the encoder and the opcode table. -/

namespace Sys2Proof

/-! ### The fields of a command word (30_encoding.md R44) -/

/-- `OP = c[63:60]`. -/
def opField (c : Word) : BitVec 4 := c.extractLsb' 60 4

/-- `RSV = c[59:37]`, reserved in every command (R46). -/
def rsvField (c : Word) : BitVec 23 := c.extractLsb' 37 23

/-- `WM1 = c[36:32]`, the field width minus one (R47). -/
def wm1Field (c : Word) : BitVec 5 := c.extractLsb' 32 5

/-- `IMM32 = c[31:0]` (R48). -/
def immField (c : Word) : BitVec 32 := c.extractLsb' 0 32

/-! ### Decoding (30_encoding.md R55) -/

/-- Why a word is `Illegal` (30_encoding.md R56, R57; 60_exceptions.md R101). The block reports no reason: every one of
these is answered alike. -/
inductive Illegal
  /-- `RSV` is not zero (R46). -/
  | reservedBits
  /-- `OP` is `0x0` or `0x7` to `0xF` (R56). -/
  | reservedOp
  /-- `WM1` is not zero in SEEK, INDEX, CLEAR or APPEND (R57). -/
  | widthBits
  /-- A must-be-zero bit of `IMM32` is set in READ, INDEX, CLEAR or APPEND (R57). -/
  | operandBits
  deriving DecidableEq, Repr

/-- `ct = zext(WM1) + 1` (R47). -/
def widthOf (wm1 : BitVec 5) : Nat := wm1.toNat + 1

/-- `delta = sint(IMM32)` (R48). -/
def deltaOf (imm : BitVec 32) : Int := imm.toInt

/-- A command whose must-be-zero `WM1` and `IMM32` bits are those given (R57). -/
def withZeroFields (wm1 : BitVec 5) (immMbz : BitVec 32) (i : Instr) : Except Illegal Instr :=
  if wm1 ≠ 0 then .error .widthBits
  else if immMbz ≠ 0 then .error .operandBits
  else .ok i

/-- The decoder of 30_encoding.md R55, total on every 64-bit word. -/
def decode (c : Word) : Except Illegal Instr :=
  let wm1 := wm1Field c
  let imm := immField c
  if rsvField c ≠ 0 then .error .reservedBits
  else if opField c = 1 then (if imm ≠ 0 then .error .operandBits else .ok (.read (widthOf wm1)))
  else if opField c = 2 then .ok (.write (widthOf wm1) imm)
  else if opField c = 3 then withZeroFields wm1 0 (.seek (deltaOf imm))
  else if opField c = 4 then withZeroFields wm1 imm .index
  else if opField c = 5 then withZeroFields wm1 imm .clear
  else if opField c = 6 then withZeroFields wm1 (imm &&& 0xFFFFFF00) (.append (imm.extractLsb' 0 8))
  else .error .reservedOp

/-! ### Encoding (30_encoding.md R49 to R53) -/

/-- The word with the given `OP`, `WM1` and `IMM32`, and `RSV` zero (R44). -/
def packWord (op : BitVec 4) (wm1 : BitVec 5) (imm : BitVec 32) : Word := op ++ (0#23) ++ wm1 ++ imm

/-- The `OP` of a command (R54). -/
def Instr.op : Instr → BitVec 4
  | .read _ => 1
  | .write _ _ => 2
  | .seek _ => 3
  | .index => 4
  | .clear => 5
  | .append _ => 6

/-- The `WM1` of a command (R49 to R53). -/
def Instr.wm1 : Instr → BitVec 5
  | .read ct => BitVec.ofNat 5 (ct - 1)
  | .write ct _ => BitVec.ofNat 5 (ct - 1)
  | .seek _ => 0
  | .index => 0
  | .clear => 0
  | .append _ => 0

/-- The `IMM32` of a command (R49 to R53). -/
def Instr.imm : Instr → BitVec 32
  | .read _ => 0
  | .write _ value => value
  | .seek delta => BitVec.ofInt 32 delta
  | .index => 0
  | .clear => 0
  | .append byte => byte.setWidth 32

/-- The word of a well-formed command (30_encoding.md R49 to R53, R61). -/
def encode (i : Instr) : Word := packWord i.op i.wm1 i.imm

/-! ### The opcode table (spec/opcode_table.json) -/

/-- The rows of spec/opcode_table.json, in its order: mnemonic, match, mask (30_encoding.md R49 to R53). -/
def opcodeTable : List (String × Word × Word) :=
  [("READ",   0x1000000000000000, 0xFFFFFFE0FFFFFFFF),
   ("WRITE",  0x2000000000000000, 0xFFFFFFE000000000),
   ("SEEK",   0x3000000000000000, 0xFFFFFFFF00000000),
   ("INDEX",  0x4000000000000000, 0xFFFFFFFFFFFFFFFF),
   ("CLEAR",  0x5000000000000000, 0xFFFFFFFFFFFFFFFF),
   ("APPEND", 0x6000000000000000, 0xFFFFFFFFFFFFFF00)]

/-- `c` matches a row: `(c & mask) == match` (30_encoding.md R55). -/
def rowMatches (c : Word) (row : String × Word × Word) : Bool := (c &&& row.2.2) == row.2.1

/-- A command's mnemonic (30_encoding.md R54). -/
def Instr.mnemonic : Instr → String
  | .read _ => "READ"
  | .write _ _ => "WRITE"
  | .seek _ => "SEEK"
  | .index => "INDEX"
  | .clear => "CLEAR"
  | .append _ => "APPEND"

/-! ### The host's reading of a table row -/

/-- The command word of `nbits` bits `w`, bits above `nbits` zero. A command is one 64-bit word presented in parallel
(30_encoding.md R44), so the table's bit numbers are the word's and no byte order applies (20_memory.md R35). -/
def tableWord (nbits w : Nat) : Word := BitVec.ofNat 64 (w % 2 ^ nbits)

/-- The instruction the decoder reads from a table row's word; none where it refuses, and none for a width no command has
(30_encoding.md R59). -/
def decodeTableWord (nbits w : Nat) : Option Instr :=
  if 64 < nbits then none else (decode (tableWord nbits w)).toOption

end Sys2Proof
end

