-- ==== Sys2Proof/Machine/State.lean ====
section
/-! DEFINITION. The state of the bit cursor (10_state.md R15, R24, R25), its reset value (R27), and the reasons a step could
stop. -/

namespace Sys2Proof.Machine

/-- The bytes of the buffer that are not zero, by address. Canonical form: addresses strictly rising, no byte equal to
`Memory.unlisted` (`Memory.wf`). -/
abbrev Memory := List Host.Cell

/-- What an unlisted address reads as: growth writes zero to every new byte (42_bit_field_writer.md R73), and readback at and
above `LEN` is `0x00` (43_bit_cursor_engine.md R96). -/
def Memory.unlisted : Byte := 0

/-- `PHASE` (10_state.md R24). -/
inductive Phase
  /-- The block accepts a command. -/
  | idle
  /-- The command word `cmd` has been accepted and has not completed; `waits` more edges pass before the completing one
  (43_bit_cursor_engine.md R92, R93). -/
  | busy (cmd : Word) (waits : Nat)
  /-- A response is held until the host takes it. -/
  | resp
  deriving DecidableEq, Repr

/-- The block's state, its parameter `BUF_CAP`, and the host's side of the command and response ports. -/
structure State where
  /-- `B`, the buffer's non-zero bytes (10_state.md R17). -/
  mem : Memory
  /-- `LEN`, the buffer's length in bytes (10_state.md R18). -/
  len : Word
  /-- `BIT_INDEX`, the bit offset (10_state.md R19). -/
  bitIndex : Word
  /-- `PHASE` (10_state.md R24). -/
  phase : Phase
  /-- `RSP_STATUS`, the held response's status code (10_state.md R25, 30_encoding.md R60). -/
  rspStatus : BitVec 3
  /-- `RSP_DATA`, the held response's data (10_state.md R25). -/
  rspData : Word
  /-- `BUF_CAP`, the capacity in bytes: a parameter no command writes (00_scope.md R6). DESIGN CHOICE: log entry 3. -/
  bufCap : Fin Config.capLimit
  /-- The model's own count of free values drawn. DESIGN CHOICE: log entry 4. -/
  freeCount : Nat
  /-- The host's command list from the next command to present (10_state.md R21). DESIGN CHOICE: log entry 2. -/
  cmds : List Word
  /-- The responses the host has taken, oldest first: status and data (43_bit_cursor_engine.md R98).
  DESIGN CHOICE: log entry 2. -/
  taken : List (BitVec 3 × Word)
  deriving DecidableEq, Repr

/-- The reasons the machine stops with a fault: none. Every error of the block is a response status, and nothing traps
(60_exceptions.md R99, R103), so nothing raises one: safe. -/
inductive Fault
  deriving DecidableEq, Repr

/-- The reasons the model has no meaning for an instruction. -/
inductive Refusal
  /-- Raised by an arm of `exec` whose instruction has no meaning yet. No arm raises it: every command is modelled. Safe: a
  refused step proves nothing of what the block does. -/
  | notModelled (mnemonic : String)
  deriving DecidableEq, Repr

/-- The machine of capacity `cap` right after reset (10_state.md R27, 70_reset_and_hazards.md R115). The response registers are
unspecified then, so they hold a free value (log entry 4); the host has nothing to present (log entry 2). -/
def State.resetWith (cap : Fin Config.capLimit) : State where
  mem := []
  len := 0
  bitIndex := 0
  phase := .idle
  rspStatus := Config.freeRspStatus 0
  rspData := Config.freeRspData 0
  bufCap := cap
  freeCount := 1
  cmds := []
  taken := []

/-- The machine right after reset (10_state.md R27), of capacity `Config.bufCap`. -/
def State.reset : State := State.resetWith Config.bufCap

end Sys2Proof.Machine
end

