-- ==== Sys2Proof/Machine/Ops.lean ====
section
/-! DEFINITION. The named operations over memory and registers: reading and writing one byte (00_scope.md R9), growth
(42_bit_field_writer.md R73), the responses (43_bit_cursor_engine.md R93, R94) and reset (70_reset_and_hazards.md R115). -/

namespace Sys2Proof.Machine

/-! ### Bytes of memory -/

/-- The byte at an address. -/
def Memory.read : Memory → Nat → Byte
  | [], _ => Memory.unlisted
  | (b, v) :: m, a => if a = b then v else Memory.read m a

/-- Put `(a, v)` before the cells `m`, unless `v` is what an unlisted address reads as. -/
def Memory.put (a : Nat) (v : Byte) (m : Memory) : Memory :=
  if v = Memory.unlisted then m else (a, v) :: m

/-- Set the byte at an address, keeping the canonical form. -/
def Memory.write : Memory → Nat → Byte → Memory
  | [], a, v => Memory.put a v []
  | (b, w) :: m, a, v =>
    if a < b then Memory.put a v ((b, w) :: m)
    else if a = b then Memory.put a v m
    else (b, w) :: Memory.write m a v

/-- Set every byte at an address `n` or above to zero. -/
def Memory.zeroFrom (m : Memory) (n : Nat) : Memory := m.filter fun cell => cell.1 < n

/-- Canonical from address `lo` on: addresses rise strictly from `lo`, and no byte is what an unlisted address reads as. -/
def Memory.wfFrom : Nat → Memory → Bool
  | _, [] => true
  | lo, (a, v) :: m => decide (lo ≤ a) && decide (v ≠ Memory.unlisted) && Memory.wfFrom (a + 1) m

/-- The canonical form of memory. -/
def Memory.wf (m : Memory) : Bool := Memory.wfFrom 0 m

/-- Every listed byte lies below address `n`. -/
def Memory.below (m : Memory) (n : Nat) : Bool := m.all fun cell => decide (cell.1 < n)

/-! ### Exact arithmetic on registers -/

/-- `ceil8(n) = (n + 7) div 8` (00_scope.md R8). -/
def ceil8 (n : Nat) : Nat := (n + 7) / 8

/-- `clamp(t, lo, hi) = min(max(t, lo), hi)` (00_scope.md R8). -/
def clamp (t lo hi : Int) : Int := min (max t lo) hi

/-- `mask(n) = 2^n - 1` (00_scope.md R8). -/
def mask (n : Nat) : Nat := 2 ^ n - 1

/-- `8*LEN`, the end of the buffer as a bit offset. -/
def State.endBit (s : State) : Nat := 8 * s.len.toNat

/-- Write `BIT_INDEX`. The value is computed exactly (00_scope.md R8); on every state of the invariant it fits 64 bits
(10_state.md R19). DESIGN CHOICE elsewhere: log entry 5. -/
def State.setBitIndex (s : State) (n : Nat) : State := { s with bitIndex := BitVec.ofNat 64 n }

/-! ### The buffer -/

/-- Byte `a` of the buffer as the readback port shows it: `B[a]` below `LEN`, `0x00` at and above it
(43_bit_cursor_engine.md R96). Below `LEN` it is `MemRead(a, 1)` (00_scope.md R9). -/
def State.byteAt (s : State) (a : Nat) : Byte :=
  if a < s.len.toNat then Memory.read s.mem a else 0

/-- The buffer as the sequence `B[0] .. B[LEN-1]` (00_scope.md R12). -/
def State.bytes (s : State) : List Byte := (List.range s.len.toNat).map s.byteAt

/-- `Grow(n)` for `n >= LEN`: `B <- B ++ zeros(n - LEN)`, `LEN <- n` (42_bit_field_writer.md R73). Every new byte is set to zero
whatever the storage held there (10_state.md R17). -/
def State.grow (s : State) (n : Nat) : State :=
  { s with mem := Memory.zeroFrom s.mem s.len.toNat, len := BitVec.ofNat 64 n }

/-- `B <- B ++ [byte]`, `LEN <- LEN + 1` (43_bit_cursor_engine.md R90). -/
def State.appendByte (s : State) (byte : Byte) : State :=
  { s with
    mem := Memory.write (Memory.zeroFrom s.mem s.len.toNat) s.len.toNat byte
    len := BitVec.ofNat 64 (s.len.toNat + 1) }

/-- `B <- []`, `LEN <- 0`, `BIT_INDEX <- 0` (43_bit_cursor_engine.md R89, 70_reset_and_hazards.md R115). -/
def State.emptyBuffer (s : State) : State := { s with mem := [], len := 0, bitIndex := 0 }

/-! ### Responses (30_encoding.md R60) -/

/-- The outcomes a command can end in (60_exceptions.md R99). -/
inductive Status
  | ok
  | overread
  | illegal
  | capacity
  deriving DecidableEq, Repr

/-- The `rsp_status` code of an outcome (30_encoding.md R60); 4 to 7 are never produced. -/
def Status.code : Status → BitVec 3
  | .ok => 0
  | .overread => 1
  | .illegal => 2
  | .capacity => 3

/-- `respond(s, d)`: hold the response, `PHASE <- RESP` (43_bit_cursor_engine.md R93). -/
def State.respond (s : State) (st : Status) (d : Word) : State :=
  { s with rspStatus := st.code, rspData := d, phase := .resp }

/-- `raise Overread`, `raise Illegal`, `raise Capacity`: the command ends with the status, data 0 and no change of
architectural state (00_scope.md R9, 60_exceptions.md R103). This is all the block has in place of taking an exception:
nothing is saved and no handler runs, so there is no return beside it (R105). -/
def State.raise (s : State) (st : Status) : State := s.respond st 0

/-- The response registers become unspecified (10_state.md R25): they hold the next free value. DESIGN CHOICE: log entry 4. -/
def State.freeRsp (s : State) : State :=
  { s with
    rspStatus := Config.freeRspStatus s.freeCount
    rspData := Config.freeRspData s.freeCount
    freeCount := s.freeCount + 1 }

/-- Accept a command whose response comes `lat` edges later: `PHASE <- BUSY`, the word sampled (43_bit_cursor_engine.md R92). -/
def State.accept (s : State) (c : Word) (lat : Nat) : State :=
  { s.freeRsp with phase := .busy c (lat - 1) }

/-- The response is taken: `PHASE <- IDLE` (43_bit_cursor_engine.md R94). -/
def State.takeRsp (s : State) : State := { s.freeRsp with phase := .idle }

/-- A reset edge (70_reset_and_hazards.md R115, R116): the buffer and its registers empty, `PHASE <- IDLE`, whatever was in
flight or held is dropped. It is no event of the host's lists. -/
def State.resetEdge (s : State) : State := { s.emptyBuffer.freeRsp with phase := .idle }

/-! ### The host's side of the ports (10_state.md R21) -/

/-- The host takes the held response and its command index advances by one, whatever the status (10_state.md R21). -/
def State.hostTake (s : State) : State :=
  { s.takeRsp with taken := s.taken ++ [(s.rspStatus, s.rspData)], cmds := s.cmds.tail }

/-- The host, facing an idle block, has `c` as the next command of its list. It is the placing of a word from outside, no
event of the block. DESIGN CHOICE (log entries 2 and 4): the word takes the place of the head of the list; on a block in BUSY
the accepted command is dropped with no effect and no response, which 43_bit_cursor_engine.md R94 lets only a reset do; on a
block in RESP the held response is let go and `RSP_STATUS` and `RSP_DATA` keep its bits in IDLE, where 10_state.md R25 and R28
leave them unspecified. -/
def State.present (s : State) (c : Word) : State := { s with phase := .idle, cmds := c :: s.cmds.tail }

end Sys2Proof.Machine
end

