-- ==== Sys2Proof/Machine/Operands.lean ====
section
/-! DEFINITION. The operand form of READ and WRITE: a field of bits at a bit offset (00_scope.md R7, R9; 41_bit_field_reader.md
R66; 42_bit_field_writer.md R72 to R74). -/

namespace Sys2Proof.Machine

/-- The weight of bit offset `p` within its byte: `7 - (p mod 8)` (00_scope.md R7). -/
def bitWeight (p : Nat) : Nat := 7 - p % 8

/-- `bufbit(B, p)` (00_scope.md R7). -/
def Memory.bit (m : Memory) (p : Nat) : Bool := (Memory.read m (p / 8)).getLsbD (bitWeight p)

/-- A byte with bit `i` (weight `2^i`) replaced. -/
def byteWithBit (x : Byte) (i : Nat) (b : Bool) : Byte :=
  if b then x ||| ((1#8) <<< i) else x &&& ~~~((1#8) <<< i)

/-- `bufbit(B, p) <- b` (42_bit_field_writer.md R74). -/
def Memory.setBit (m : Memory) (p : Nat) (b : Bool) : Memory :=
  Memory.write m (p / 8) (byteWithBit (Memory.read m (p / 8)) (bitWeight p) b)

/-- `BitRead(p, n)`: the `n` bits from offset `p`, the first the most significant (41_bit_field_reader.md R66). -/
def Memory.bitRead (m : Memory) (p : Nat) : Nat → Nat
  | 0 => 0
  | n + 1 => 2 * Memory.bitRead m p n + (Memory.bit m (p + n)).toNat

/-- `BitWrite(p, n, v)`: the `n` bits from offset `p` become those of `v`, `v[n-1]` at offset `p` (42_bit_field_writer.md R74). -/
def Memory.bitWrite (m : Memory) (p n : Nat) (v : Nat) : Memory :=
  match n with
  | 0 => m
  | n + 1 => Memory.bitWrite (Memory.setBit m p (v.testBit n)) (p + 1) n v

/-- The value WRITE writes, `value mod 2^ct` (42_bit_field_writer.md R72). -/
def fieldValue (ct : Nat) (value : BitVec 32) : Nat := value.toNat % 2 ^ ct

/-- `newLen = max(LEN, ceil8(BIT_INDEX + ct))` (42_bit_field_writer.md R73). -/
def State.newLen (s : State) (ct : Nat) : Nat := max s.len.toNat (ceil8 (s.bitIndex.toNat + ct))

/-- Bit `p` of the buffer as the readback port shows it: `bufbit(B, p)` below `8*LEN`, 0 at and above it. -/
def State.bitAt (s : State) (p : Nat) : Bool := (s.byteAt (p / 8)).getLsbD (bitWeight p)

/-- `BitWrite(BIT_INDEX, ct, v)` on the buffer (42_bit_field_writer.md R75). -/
def State.putField (s : State) (ct v : Nat) : State :=
  { s with mem := Memory.bitWrite s.mem s.bitIndex.toNat ct v }

/-- Where SEEK goes: `clamp(BIT_INDEX + delta, 0, 8*LEN)`, the sum exact (43_bit_cursor_engine.md R84, R85). -/
def State.seekTarget (s : State) (delta : Int) : Nat :=
  (clamp (s.bitIndex.toNat + delta) 0 s.endBit).toNat

end Sys2Proof.Machine
end

