-- ==== Sys2Proof/Machine/Flags.lean ====
section
/-! DEFINITION. The block has no flags (10_state.md R22). What it computes in their place is the status of a command
(60_exceptions.md R99 to R104): its two conditions. ILLEGAL is decoding's (`execute`), and comes first (R104). -/

namespace Sys2Proof.Machine

/-- READ's Overread condition, `BIT_INDEX + ct > 8*LEN`, the sum exact (41_bit_field_reader.md R64). -/
abbrev State.Overreads (s : State) (ct : Nat) : Prop := s.endBit < s.bitIndex.toNat + ct

/-- The Capacity condition of a command that would make `LEN = n` (60_exceptions.md R102). -/
abbrev State.ExceedsCap (s : State) (n : Nat) : Prop := s.bufCap.val < n

end Sys2Proof.Machine
end

