-- ==== Sys2Proof/Machine/Engine.lean ====
section
/-! DEFINITION. `bit_cursor_engine`: SEEK, INDEX, CLEAR and APPEND (43_bit_cursor_engine.md). -/

namespace Sys2Proof.Machine

/-- SEEK (43_bit_cursor_engine.md R84). -/
def execSeek (delta : Int) (s : State) : Host.Outcome State Fault Refusal :=
  .next ((s.setBitIndex (s.seekTarget delta)).respond .ok 0)

/-- INDEX (43_bit_cursor_engine.md R88). -/
def execIndex (s : State) : Host.Outcome State Fault Refusal :=
  .next (s.respond .ok s.bitIndex)

/-- CLEAR (43_bit_cursor_engine.md R89). -/
def execClear (s : State) : Host.Outcome State Fault Refusal :=
  .next (s.emptyBuffer.respond .ok 0)

/-- APPEND (43_bit_cursor_engine.md R90). -/
def execAppend (byte : Byte) (s : State) : Host.Outcome State Fault Refusal :=
  .next <|
    if s.ExceedsCap (s.len.toNat + 1) then s.raise .capacity
    else (s.appendByte byte).respond .ok 0

end Sys2Proof.Machine
end

