-- ==== Sys2Proof/Machine/Reader.lean ====
section
/-! DEFINITION. `bit_field_reader`: READ (41_bit_field_reader.md). -/

namespace Sys2Proof.Machine

/-- READ (41_bit_field_reader.md R65). -/
def execRead (ct : Nat) (s : State) : Host.Outcome State Fault Refusal :=
  .next <|
    if s.Overreads ct then s.raise .overread
    else (s.setBitIndex (s.bitIndex.toNat + ct)).respond .ok
      (BitVec.ofNat 64 (Memory.bitRead s.mem s.bitIndex.toNat ct))

end Sys2Proof.Machine
end

