-- ==== Sys2Proof/Machine/Writer.lean ====
section
/-! DEFINITION. `bit_field_writer`: WRITE with buffer growth (42_bit_field_writer.md). -/

namespace Sys2Proof.Machine

/-- WRITE (42_bit_field_writer.md R75). -/
def execWrite (ct : Nat) (value : BitVec 32) (s : State) : Host.Outcome State Fault Refusal :=
  .next <|
    if s.ExceedsCap (s.newLen ct) then s.raise .capacity
    else (((s.grow (s.newLen ct)).putField ct (fieldValue ct value)).setBitIndex
      (s.bitIndex.toNat + ct)).respond .ok 0

end Sys2Proof.Machine
end

