-- ==== Sys2Proof/Machine/Dispatch.lean ====
section
/-! DEFINITION. One arm per command (43_bit_cursor_engine.md R93). -/

namespace Sys2Proof.Machine

def exec (i : Instr) (s : State) : Host.Outcome State Fault Refusal :=
  match i with
  | .read ct => Sys2Proof.Machine.execRead ct s
  | .write ct value => Sys2Proof.Machine.execWrite ct value s
  | .seek delta => Sys2Proof.Machine.execSeek delta s
  | .index => Sys2Proof.Machine.execIndex s
  | .clear => Sys2Proof.Machine.execClear s
  | .append byte => Sys2Proof.Machine.execAppend byte s

end Sys2Proof.Machine
end

