-- ==== Sys2Proof/Machine/Interface.lean ====
section
/-! DEFINITION. The command and response ports (43_bit_cursor_engine.md R92 to R98): execution of an accepted word, one
handshake event of a dutiful host (what a step is), and the block edge by edge with all its ports. -/

namespace Sys2Proof.Machine

/-- `execute(c)` (43_bit_cursor_engine.md R93): the word's command, or status ILLEGAL with no state change
(60_exceptions.md R101). -/
def execute (c : Word) (s : State) : Host.Outcome State Fault Refusal :=
  match decode c with
  | .error _ => .next (s.raise .illegal)
  | .ok i => exec i s

/-! ### One handshake event (43_bit_cursor_engine.md R98) -/

/-- The next event of a block whose host always presents its next command and takes every response
(70_reset_and_hazards.md R121): in IDLE the next command is accepted and completes, or the block waits if there is none
(60_exceptions.md R114); in BUSY the accepted command completes; in RESP the host takes the response.
DESIGN CHOICE: log entry 1. -/
def hostEvent (s : State) : Host.Outcome State Fault Refusal :=
  match s.phase with
  | .idle =>
    match s.cmds with
    | [] => .next s.freeRsp
    | c :: _ => execute c (s.accept c 1)
  | .busy c _ => execute c s
  | .resp => .next s.hostTake

/-! ### The ports and the clock (43_bit_cursor_engine.md R95) -/

/-- The block's inputs at one rising edge of `clk`. -/
structure PortIn where
  /-- `rst`, synchronous reset. -/
  rst : Bool
  /-- `cmd_valid`. -/
  cmdValid : Bool
  /-- `cmd_data`. -/
  cmdData : Word
  /-- `rsp_ready`. -/
  rspReady : Bool
  /-- `rb_addr`, the readback byte address. -/
  rbAddr : Word
  deriving DecidableEq, Repr

/-- The block's outputs. A sample the spec leaves unspecified is none: it is no observation (70_reset_and_hazards.md R122,
10_state.md R25). -/
structure PortOut where
  /-- `cmd_ready` (43_bit_cursor_engine.md R92). -/
  cmdReady : Bool
  /-- `rsp_valid` (R94). -/
  rspValid : Bool
  /-- `rsp_status` (R94). -/
  rspStatus : Option (BitVec 3)
  /-- `rsp_data` (R94). -/
  rspData : Option Word
  /-- `rb_data` (R96). -/
  rbData : Option Byte
  /-- `len_o` (R97). -/
  lenO : Option Word
  /-- `bit_index_o` (R97). -/
  bitIndexO : Option Word
  deriving DecidableEq, Repr

/-- `PHASE = BUSY`. -/
def Phase.isBusy : Phase → Bool
  | .idle => false
  | .busy _ _ => true
  | .resp => false

/-- A value that is no observation while BUSY (70_reset_and_hazards.md R122). -/
def State.sample {α : Type} (s : State) (x : α) : Option α := if s.phase.isBusy then none else some x

/-- The combinational outputs (43_bit_cursor_engine.md R92, R94, R96, R97). -/
def outputs (p : PortIn) (s : State) : PortOut where
  cmdReady := decide (s.phase = .idle)
  rspValid := decide (s.phase = .resp)
  rspStatus := if s.phase = .resp then some s.rspStatus else none
  rspData := if s.phase = .resp then some s.rspData else none
  rbData := s.sample (s.byteAt p.rbAddr.toNat)
  lenO := s.sample s.len
  bitIndexO := s.sample s.bitIndex

/-- One rising edge of `clk` (43_bit_cursor_engine.md R92 to R94, 70_reset_and_hazards.md R115, R116). `lat` is the LATENCY of a
command accepted at this edge, at least 1 (00_scope.md R6: OPEN, an argument; log entry 8). -/
def edge (lat : Nat) (p : PortIn) (s : State) : Host.Outcome State Fault Refusal :=
  if p.rst then .next s.resetEdge
  else
    match s.phase with
    | .idle => .next (if p.cmdValid then s.accept p.cmdData lat else s.freeRsp)
    | .busy c 0 => execute c s
    | .busy c (n + 1) => .next { s.freeRsp with phase := .busy c n }
    | .resp => .next (if p.rspReady then s.takeRsp else s)

/-- Edges one after another, each with the LATENCY a command accepted at it would have. -/
def edges : List (Nat × PortIn) → State → Host.Outcome State Fault Refusal
  | [], s => .next s
  | (lat, p) :: rest, s =>
    match edge lat p s with
    | .next t => edges rest t
    | .fault r => .fault r
    | .refused r => .refused r

end Sys2Proof.Machine
end

