-- ==== Sys2Proof/Machine/Step.lean ====
section
/-! DEFINITION. The step of the machine, and how the host places its next command. -/

namespace Sys2Proof.Machine

/-- One step: the next handshake event (43_bit_cursor_engine.md R98; log entry 1). -/
def step (s : State) : Host.Outcome State Fault Refusal := hostEvent s

/-- `s` with the table word as the next command of the host's list and the block idle, so that the very next step accepts
and runs it. On a block in BUSY the accepted command is dropped, on one in RESP the held response let go
(`State.present`). DESIGN CHOICE: log entries 2, 4 and 13. -/
def State.withFetchWord (s : State) (nbits w : Nat) : State := s.present (tableWord nbits w)

end Sys2Proof.Machine
end

