-- ==== Sys2Proof/Machine/Assembler.lean ====
section
/-! DEFINITION. The assembly syntax (30_encoding.md R61) and the pseudo-instructions ATTACH and SEEKL (R62). -/

namespace Sys2Proof.Machine

/-! ### Pseudo-instructions (30_encoding.md R62) -/

/-- `ATTACH b0, …, b(n-1)`: CLEAR, then one APPEND per byte (R62, 43_bit_cursor_engine.md R91). -/
def attach (bs : List Byte) : List Instr := .clear :: bs.map .append

/-- The largest magnitude of one SEEK of a SEEKL, `2^31 - 1` (R62). -/
def seekChunk : Nat := 2 ^ 31 - 1

/-- `k = max(1, ceil(|delta| / (2^31 - 1)))` (R62). -/
def seeklCount (delta : Int) : Nat := max 1 ((delta.natAbs + (seekChunk - 1)) / seekChunk)

/-- `k` SEEKs of one sign whose magnitudes sum to `n <= k * chunk`, each as large as `chunk` allows. DESIGN CHOICE: log
entry 15. -/
def seeksOf (chunk : Nat) (sign : Int) : Nat → Nat → List Instr
  | 0, _ => []
  | k + 1, n => .seek (sign * (min n chunk : Nat)) :: seeksOf chunk sign k (n - chunk)

/-- `SEEKL delta` (R62). -/
def seekl (delta : Int) : List Instr := seeksOf seekChunk delta.sign (seeklCount delta) delta.natAbs

/-! ### Lines with their operands (30_encoding.md R61, R62) -/

/-- One line of assembly, its operands any integers. -/
inductive AsmLine
  | read (ct : Int)
  | write (ct value : Int)
  | seek (delta : Int)
  | index
  | clear
  | append (byte : Int)
  | attach (bytes : List Int)
  | seekl (delta : Int)
  deriving DecidableEq, Repr

/-- Why a line is an assembly error and produces no word (R61). -/
inductive AsmError
  | unknownMnemonic
  | operandCount
  | badNumber
  | outOfRange
  deriving DecidableEq, Repr

/-- An operand in `lo <= x < hi`, as a natural number. -/
def operandIn (lo hi : Nat) (x : Int) : Except AsmError Nat :=
  if (lo : Int) ≤ x ∧ x < hi then .ok x.toNat else .error .outOfRange

/-- A width operand, `1 <= ct <= 32` (R61). -/
def widthOperand (x : Int) : Except AsmError Nat := operandIn Config.wMin (Config.wMax + 1) x

/-- A byte operand, `0 <= byte < 256` (R61). -/
def byteOperand (x : Int) : Except AsmError Byte := (operandIn 0 256 x).map (BitVec.ofNat 8)

/-- The byte operands of ATTACH (R62). -/
def byteOperands : List Int → Except AsmError (List Byte)
  | [] => .ok []
  | x :: xs =>
    match byteOperand x, byteOperands xs with
    | .ok b, .ok bs => .ok (b :: bs)
    | .error e, _ => .error e
    | .ok _, .error e => .error e

/-- The commands a line stands for; an operand outside its range is an assembly error (R61). -/
def AsmLine.instrs : AsmLine → Except AsmError (List Instr)
  | .read ct => (widthOperand ct).map fun n => [.read n]
  | .write ct value =>
    match widthOperand ct, operandIn 0 (2 ^ 32) value with
    | .ok n, .ok v => .ok [.write n (BitVec.ofNat 32 v)]
    | .error e, _ => .error e
    | .ok _, .error e => .error e
  | .seek delta => if deltaOk delta then .ok [.seek delta] else .error .outOfRange
  | .index => .ok [.index]
  | .clear => .ok [.clear]
  | .append byte => (byteOperand byte).map fun b => [.append b]
  | .attach bytes => (byteOperands bytes).map Machine.attach
  | .seekl delta => .ok (Machine.seekl delta)

/-- The command words a line stands for (R61). -/
def AsmLine.words (l : AsmLine) : Except AsmError (List Word) := l.instrs.map fun is => is.map encode

/-! ### Text (30_encoding.md R61). Letter case, spacing and where a minus sign may stand: DESIGN CHOICE, log entry 14. -/

/-- White space within a line. -/
def isBlank (c : Char) : Bool := c == ' ' || c == '\t' || c == '\r'

/-- A piece of text without the white space around it. -/
def trimBlank (cs : List Char) : List Char := ((cs.dropWhile isBlank).reverse.dropWhile isBlank).reverse

/-- Text cut at every `sep`. -/
def splitAtChar (sep : Char) : List Char → List (List Char)
  | [] => [[]]
  | c :: cs =>
    if c == sep then [] :: splitAtChar sep cs
    else
      match splitAtChar sep cs with
      | [] => [[c]]
      | piece :: pieces => (c :: piece) :: pieces

/-- The value of a digit, hexadecimal digits in either case. -/
def digitValue (c : Char) : Option Nat :=
  let n := c.toNat
  if 48 ≤ n ∧ n ≤ 57 then some (n - 48)
  else if 97 ≤ n ∧ n ≤ 102 then some (n - 87)
  else if 65 ≤ n ∧ n ≤ 70 then some (n - 55)
  else none

/-- Digits of a base, most significant first, onto an accumulator. -/
def digitsFrom (base : Nat) : Nat → List Char → Option Nat
  | acc, [] => some acc
  | acc, c :: cs =>
    match digitValue c with
    | none => none
    | some d => if d < base then digitsFrom base (base * acc + d) cs else none

/-- A non-empty numeral of a base. -/
def numeral (base : Nat) : List Char → Option Nat
  | [] => none
  | c :: cs => digitsFrom base 0 (c :: cs)

/-- A number: decimal, hexadecimal with `0x` or binary with `0b` (R61). -/
def parseNat : List Char → Option Nat
  | '0' :: 'x' :: cs => numeral 16 cs
  | '0' :: 'b' :: cs => numeral 2 cs
  | cs => numeral 10 cs

/-- An operand: a number, its negative after a minus sign. The spec shows no minus sign in a number (30_encoding.md R61);
DESIGN CHOICE (log entry 14): it may stand before any number of any operand, and the range of R61 is then checked on the
value alone, so that `-0` is 0, unsigned operands included, while any other negative value of an unsigned operand is out of
range. -/
def parseOperand (cs : List Char) : Except AsmError Int :=
  match cs with
  | '-' :: ds => match parseNat ds with
    | some n => .ok (-(n : Int))
    | none => .error .badNumber
  | ds => match parseNat ds with
    | some n => .ok n
    | none => .error .badNumber

/-- The operands of a line. -/
def parseOperands : List (List Char) → Except AsmError (List Int)
  | [] => .ok []
  | p :: ps =>
    match parseOperand (trimBlank p), parseOperands ps with
    | .ok x, .ok xs => .ok (x :: xs)
    | .error e, _ => .error e
    | .ok _, .error e => .error e

/-- The mnemonics of the assembly syntax (R61, R62). -/
inductive AsmOp
  | read | write | seek | index | clear | append | attach | seekl
  deriving DecidableEq, Repr

/-- The operation a mnemonic names. -/
def asmOp (m : List Char) : Option AsmOp :=
  if m = ['R', 'E', 'A', 'D'] then some .read
  else if m = ['W', 'R', 'I', 'T', 'E'] then some .write
  else if m = ['S', 'E', 'E', 'K'] then some .seek
  else if m = ['I', 'N', 'D', 'E', 'X'] then some .index
  else if m = ['C', 'L', 'E', 'A', 'R'] then some .clear
  else if m = ['A', 'P', 'P', 'E', 'N', 'D'] then some .append
  else if m = ['A', 'T', 'T', 'A', 'C', 'H'] then some .attach
  else if m = ['S', 'E', 'E', 'K', 'L'] then some .seekl
  else none

/-- A mnemonic with its operands, in the number its form has (R61). -/
def asmLine : AsmOp → List Int → Except AsmError AsmLine
  | .read, [ct] => .ok (.read ct)
  | .write, [ct, value] => .ok (.write ct value)
  | .seek, [delta] => .ok (.seek delta)
  | .index, [] => .ok .index
  | .clear, [] => .ok .clear
  | .append, [byte] => .ok (.append byte)
  | .attach, bytes => .ok (.attach bytes)
  | .seekl, [delta] => .ok (.seekl delta)
  | _, _ => .error .operandCount

/-- A line's text without its comment: `;` starts one (R61). -/
def stripComment (cs : List Char) : List Char := trimBlank (cs.takeWhile fun c => c != ';')

/-- The words of one line of text; an empty line has none. -/
def assembleText (cs : List Char) : Except AsmError (List Word) :=
  let body := stripComment cs
  let rest := trimBlank (body.dropWhile fun c => !isBlank c)
  match body with
  | [] => .ok []
  | _ :: _ =>
    match asmOp (body.takeWhile fun c => !isBlank c) with
    | none => .error .unknownMnemonic
    | some op =>
      match parseOperands (if rest = [] then [] else splitAtChar ',' rest) with
      | .error e => .error e
      | .ok xs =>
        match asmLine op xs with
        | .error e => .error e
        | .ok l => l.words

/-- The words of lines of text, in order; any assembly error leaves no word of the whole (R61). -/
def assembleLines : List (List Char) → Except AsmError (List Word)
  | [] => .ok []
  | l :: ls =>
    match assembleText l, assembleLines ls with
    | .ok ws, .ok vs => .ok (ws ++ vs)
    | .error e, _ => .error e
    | .ok _, .error e => .error e

/-- The words of a text, one command per line (R61). -/
def assemble (text : List Char) : Except AsmError (List Word) := assembleLines (splitAtChar '\n' text)

end Sys2Proof.Machine
end

