-- ==== Sys2Proof/Machine/Datapath.lean ====
section
/-! DEFINITION. The byte-level datapaths the spec gives beside the bit-level meanings: READ's (41_bit_field_reader.md R67) and
WRITE's (42_bit_field_writer.md R77 to R79). The meanings use the bit-level rules R66 and R74; these are stated equal to them. -/

namespace Sys2Proof.Machine

/-- The byte at an address as a number. -/
def Memory.octet (m : Memory) (a : Nat) : Nat := (Memory.read m a).toNat

/-! ### READ (41_bit_field_reader.md R67) -/

/-- The interior bytes: `n` bytes from address `j` on, ascending, shifted into the accumulator. -/
def gatherBytes (m : Memory) (j : Nat) : Nat → Nat → Nat
  | 0, acc => acc
  | n + 1, acc => gatherBytes m (j + 1) n ((acc <<< 8) ||| Memory.octet m j)

/-- The value of the `ct` bits at offset `k`, byte by byte (41_bit_field_reader.md R67). -/
def readDatapath (m : Memory) (k ct : Nat) : Nat :=
  let o := k % 8
  let baseByte := k / 8
  let lastByte := (k + ct - 1) / 8
  if baseByte = lastByte then (Memory.octet m baseByte >>> (8 - o - ct)) &&& mask ct
  else
    let acc := gatherBytes m (baseByte + 1) (lastByte - baseByte - 1) (Memory.octet m baseByte &&& mask (8 - o))
    let r := k + ct - 8 * lastByte
    (acc <<< r) ||| (Memory.octet m lastByte >>> (8 - r))

/-! ### WRITE (42_bit_field_writer.md R77 to R79) -/

/-- Clear-then-set: the bits of `field` under the mask `m8`, every other bit kept (R77). -/
def clearThenSet (b : Byte) (m8 field : Nat) : Byte :=
  (b &&& ~~~(BitVec.ofNat 8 m8)) ||| BitVec.ofNat 8 (field &&& m8)

/-- The interior bytes: byte `j` from `j + 1` up to `octetCount` receives the next-highest eight value bits (R78). -/
def scatterBytes (m : Memory) (byteOffset rem v : Nat) (j : Nat) : Nat → Memory
  | 0 => m
  | n + 1 =>
    scatterBytes (Memory.write m (byteOffset + (j + 1)) (BitVec.ofNat 8 (v >>> (rem - 8 * (j + 1)))))
      byteOffset rem v (j + 1) n

/-- The final partial byte (R79). -/
def finalByte (m : Memory) (byteOffset rem v : Nat) : Memory :=
  let mb := rem % 8
  if mb = 0 then m
  else
    let t := byteOffset + rem / 8 + 1
    Memory.write m t (clearThenSet (Memory.read m t) (mask mb <<< (8 - mb)) ((v &&& mask mb) <<< (8 - mb)))

/-- The buffer after the `ct` bits at offset `k` are set to `v < 2^ct`, byte by byte (R77 to R79). The interior and final
steps run only when the field straddles (90_conflicts.md C1). -/
def writeDatapath (m : Memory) (k ct v : Nat) : Memory :=
  let byteOffset := k / 8
  let avail := 8 - k % 8
  let first := Memory.read m byteOffset
  if ct ≤ avail then
    let sh := avail - ct
    Memory.write m byteOffset (clearThenSet first (mask ct <<< sh) (v <<< sh))
  else
    let s := ct - avail
    let m1 := Memory.write m byteOffset (clearThenSet first (mask avail) (v >>> s))
    finalByte (scatterBytes m1 byteOffset s v 0 (s / 8)) byteOffset s v

end Sys2Proof.Machine
end

