-- ==== Sys2Proof/Safety.lean ====
section
/-! DEFINITION. What a legal state of the block is, in the terms the statements use, and what a safe run is. -/

namespace Sys2Proof.Machine

/-- A held response is one the block produces: a status code it has (30_encoding.md R60: 4 to 7 never produced), and data 0 with
every error. -/
abbrev State.RspLegal (s : State) : Prop :=
  s.phase = .resp → s.rspStatus.toNat ≤ 3 ∧ (s.rspStatus ≠ 0 → s.rspData = 0)

/-- The legal states: memory in its canonical form and within the buffer (10_state.md R17), `LEN <= BUF_CAP` (R18),
`BIT_INDEX <= 8*LEN` (R20), and a legal held response (30_encoding.md R60). -/
abbrev State.Inv (s : State) : Prop :=
  Memory.wf s.mem = true ∧ Memory.below s.mem s.len.toNat = true ∧ s.len.toNat ≤ s.bufCap.val ∧
    s.bitIndex.toNat ≤ s.endBit ∧ s.RspLegal

/-- Two states have the same architectural state: `B`, `LEN` and `BIT_INDEX` (10_state.md R15). -/
abbrev State.SameArch (s t : State) : Prop := t.mem = s.mem ∧ t.len = s.len ∧ t.bitIndex = s.bitIndex

/-- Two states hold the same response. -/
abbrev State.SameRsp (s t : State) : Prop :=
  t.phase = s.phase ∧ t.rspStatus = s.rspStatus ∧ t.rspData = s.rspData

/-- What no command writes: the parameter, the count of free values and the host's lists. -/
abbrev State.SameRest (s t : State) : Prop :=
  t.bufCap = s.bufCap ∧ t.freeCount = s.freeCount ∧ t.cmds = s.cmds ∧ t.taken = s.taken

/-- Fields `vs` of widths `ws` joined most significant bit first, after the bits of `acc` (41_bit_field_reader.md R70). -/
def joinFields : Nat → List Nat → List Nat → Nat
  | acc, w :: ws, v :: vs => joinFields (acc * 2 ^ w + v) ws vs
  | acc, [], _ => acc
  | acc, _ :: _, [] => acc

/-- A run of `k` steps from `s` is safe: no step stops, and it ends in a legal state. -/
def SafeRun (s : State) (k : Nat) : Prop := ∃ t : State, Sys2Proof.core.run k s = .next t ∧ t.Inv

end Sys2Proof.Machine
end

