-- ==== Sys2Proof/Certificates/Slice0/Obligations.lean ====
section
/-! DEFINITION. The statements for the provers. `k` stands for `s.bitIndex.toNat` and `L` for `s.len.toNat` in their docstrings. -/

open Sys2Proof Sys2Proof.Machine

/-! ### Encoding -/

/-- Decoding the word of any well-formed command gives the command back, at every value of every operand
(30_encoding.md R49 to R53, R55). -/
def Obligations.DecodeOfEncodeIsTheCommand : Prop :=
  ∀ i : Instr, i.wf = true → decode (encode i) = .ok i

/-- Every word that decodes is the word of its command: each legal word has one spelling, and its operands are in range
(30_encoding.md R55, R57, R61). -/
def Obligations.EncodeOfDecodeIsTheWord : Prop :=
  ∀ (c : Word) (i : Instr), decode c = .ok i → i.wf = true ∧ encode i = c

/-- The decoder is the pseudocode of 30_encoding.md R55 over the numeric fields of the word. -/
def Obligations.DecodeIsThePseudocode : Prop :=
  ∀ c : Word,
    let op := c.toNat / 2 ^ 60
    let rsv := c.toNat / 2 ^ 37 % 2 ^ 23
    let wm1 := c.toNat / 2 ^ 32 % 2 ^ 5
    let imm := c.toNat % 2 ^ 32
    (decode c).toOption =
      if rsv ≠ 0 then none
      else if op = 1 then (if imm ≠ 0 then none else some (.read (wm1 + 1)))
      else if op = 2 then some (.write (wm1 + 1) (BitVec.ofNat 32 imm))
      else if op = 3 then
        (if wm1 ≠ 0 then none else some (.seek (if imm < 2 ^ 31 then (imm : Int) else (imm : Int) - 2 ^ 32)))
      else if op = 4 then (if wm1 ≠ 0 ∨ imm ≠ 0 then none else some .index)
      else if op = 5 then (if wm1 ≠ 0 ∨ imm ≠ 0 then none else some .clear)
      else if op = 6 then (if wm1 ≠ 0 ∨ imm / 2 ^ 8 ≠ 0 then none else some (.append (BitVec.ofNat 8 imm)))
      else none

/-- A word matches exactly one row of the opcode table, and then decodes as that row's command, or matches none, and then is
illegal (30_encoding.md R55, its last sentence). -/
def Obligations.WordMatchesOneRowOrIsIllegal : Prop :=
  ∀ c : Word,
    (opcodeTable.filter (rowMatches c) = [] ∧ ∃ e, decode c = .error e) ∨
    (∃ row i, opcodeTable.filter (rowMatches c) = [row] ∧ decode c = .ok i ∧ i.mnemonic = row.1)

/-- The word of each command as a sum of its fields (30_encoding.md R49 to R53). -/
def Obligations.EncodedWordIsItsFields : Prop :=
  (∀ ct, (Instr.read ct).wf = true → (encode (.read ct)).toNat = 1 * 2 ^ 60 + (ct - 1) * 2 ^ 32) ∧
  (∀ ct v, (Instr.write ct v).wf = true →
    (encode (.write ct v)).toNat = 2 * 2 ^ 60 + (ct - 1) * 2 ^ 32 + v.toNat) ∧
  (∀ d, (Instr.seek d).wf = true → ((encode (.seek d)).toNat : Int) = 3 * 2 ^ 60 + d % 2 ^ 32) ∧
  (encode .index).toNat = 4 * 2 ^ 60 ∧
  (encode .clear).toNat = 5 * 2 ^ 60 ∧
  (∀ b, (encode (.append b)).toNat = 6 * 2 ^ 60 + b.toNat)

/-- Words of 95_test_vectors.md, one or more of each command, decode as the spec says, and so do the first and last illegal
words (30_encoding.md R49 to R57). -/
def Obligations.SpecWordsDecodeAsWritten : Prop :=
  decode 0x1000001F00000000 = .ok (.read 32) ∧
  decode 0x2000000F12345678 = .ok (.write 16 0x12345678) ∧
  decode 0x30000000FFFFFFEC = .ok (.seek (-20)) ∧
  decode 0x4000000000000000 = .ok .index ∧
  decode 0x5000000000000000 = .ok .clear ∧
  decode 0x60000000000000CD = .ok (.append 0xCD) ∧
  decode 0x0000000000000000 = .error .reservedOp ∧
  decode 0x6000000000000100 = .error .operandBits

/-- A line of assembly gives its command's one word when its operands are in range, and is an assembly error with no word
otherwise; a WRITE value at or above `2^ct` is encoded as given (30_encoding.md R61). -/
def Obligations.AssemblyLineGivesItsWordOrNone : Prop :=
  (∀ ct : Int, (AsmLine.read ct).words =
    if 1 ≤ ct ∧ ct ≤ 32 then .ok [encode (.read ct.toNat)] else .error .outOfRange) ∧
  (∀ ct v : Int, (AsmLine.write ct v).words =
    if (1 ≤ ct ∧ ct ≤ 32) ∧ 0 ≤ v ∧ v < 2 ^ 32 then .ok [encode (.write ct.toNat (BitVec.ofInt 32 v))]
    else .error .outOfRange) ∧
  (∀ d : Int, (AsmLine.seek d).words =
    if -2 ^ 31 ≤ d ∧ d < 2 ^ 31 then .ok [encode (.seek d)] else .error .outOfRange) ∧
  AsmLine.index.words = .ok [0x4000000000000000] ∧
  AsmLine.clear.words = .ok [0x5000000000000000] ∧
  (∀ b : Int, (AsmLine.append b).words =
    if 0 ≤ b ∧ b < 256 then .ok [encode (.append (BitVec.ofInt 8 b))] else .error .outOfRange)

/-! ### The step and accepted words -/

/-- A step from IDLE accepts the host's next command and runs the command it decodes as; a step from BUSY runs the accepted
one. Accepting changes `PHASE` and the unspecified response registers only (43_bit_cursor_engine.md R92, R93). That a step is
one handshake event, with the host's list in State, is the model's choice: log entries 1 and 2. -/
def Obligations.StepRunsTheDecodedCommand : Prop :=
  (∀ (s : State) (c : Word) (cs : List Word) (i : Instr),
    s.phase = .idle → s.cmds = c :: cs → decode c = .ok i →
      step s = exec i (s.accept c 1) ∧ s.SameArch (s.accept c 1) ∧ (s.accept c 1).phase = .busy c 0 ∧
        (s.accept c 1).bufCap = s.bufCap ∧ (s.accept c 1).cmds = s.cmds ∧ (s.accept c 1).taken = s.taken) ∧
  (∀ (s : State) (c : Word) (n : Nat) (i : Instr),
    s.phase = .busy c n → decode c = .ok i → step s = exec i s)

/-- A word that is no command is answered with status ILLEGAL and data 0, and nothing else changes, whatever the state
(60_exceptions.md R101, 43_bit_cursor_engine.md R98). That one step from IDLE accepts the head of the host's list and answers
it is the model's choice: log entries 1 and 2. -/
def Obligations.IllegalWordIsAnsweredIllegal : Prop :=
  ∀ (s : State) (c : Word) (e : Illegal), decode c = .error e →
    execute c s = .next { s with rspStatus := 2, rspData := 0, phase := .resp } ∧
    (∀ cs, s.phase = .idle → s.cmds = c :: cs → ∃ t, step s = .next t ∧ s.SameArch t ∧
      t.phase = .resp ∧ t.rspStatus = 2 ∧ t.rspData = 0)

/-- With a response held, a step is the host taking it: it joins the responses taken, the host's command index advances by
one, whatever the status, and the block is idle. With nothing held and nothing to present, the block waits. Either way the
architectural state is kept (10_state.md R21, 60_exceptions.md R114). The host's lists and the step's grain are the model's
choice: log entries 1 and 2. -/
def Obligations.StepTakesTheResponseOrWaits : Prop :=
  (∀ s : State, s.phase = .resp → ∃ t, step s = .next t ∧ s.SameArch t ∧ t.phase = .idle ∧
    t.taken = s.taken ++ [(s.rspStatus, s.rspData)] ∧ t.cmds = s.cmds.tail ∧ t.bufCap = s.bufCap) ∧
  (∀ s : State, s.phase = .idle → s.cmds = [] → ∃ t, step s = .next t ∧ s.SameArch t ∧ t.phase = .idle ∧
    t.taken = s.taken ∧ t.cmds = [] ∧ t.bufCap = s.bufCap)

/-! ### READ -/

/-- READ as its pseudocode has it: Overread when `k + ct > 8*L`, with only the response changed; else the field, most
significant bit first, and `BIT_INDEX` advanced by `ct`, with nothing else changed (41_bit_field_reader.md R65, R66). -/
def Obligations.ReadReturnsTheFieldOrOverreads : Prop :=
  ∀ (s : State) (ct : Nat), (Instr.read ct).wf = true → s.Inv →
    (8 * s.len.toNat < s.bitIndex.toNat + ct →
      exec (.read ct) s = .next { s with rspStatus := 1, rspData := 0, phase := .resp }) ∧
    (s.bitIndex.toNat + ct ≤ 8 * s.len.toNat → ∃ t,
      exec (.read ct) s = .next t ∧
      t = { s with bitIndex := t.bitIndex, rspStatus := 0, rspData := t.rspData, phase := .resp } ∧
      t.bitIndex.toNat = s.bitIndex.toNat + ct ∧
      t.rspData.toNat =
        ∑ i ∈ Finset.range ct, (Memory.bit s.mem (s.bitIndex.toNat + i)).toNat * 2 ^ (ct - 1 - i))

/-- READ answers OVERREAD exactly when `k + ct > 8*L`, and then the cursor state is unchanged and the data 0; it has no other
error (41_bit_field_reader.md R64). -/
def Obligations.OverreadExactlyWhenTooFewBitsRemain : Prop :=
  ∀ (s t : State) (ct : Nat), exec (.read ct) s = .next t →
    (t.rspStatus = 1 ↔ 8 * s.len.toNat < s.bitIndex.toNat + ct) ∧
    (t.rspStatus = 1 → s.SameArch t ∧ t.rspData = 0) ∧
    (t.rspStatus = 0 ∨ t.rspStatus = 1)

/-- `BitRead(p, n)` is the weighted sum of its bits, below `2^n` (41_bit_field_reader.md R66). -/
def Obligations.FieldValueIsTheWeightedSumOfItsBits : Prop :=
  ∀ (m : Memory) (p n : Nat),
    Memory.bitRead m p n = ∑ i ∈ Finset.range n, (Memory.bit m (p + i)).toNat * 2 ^ (n - 1 - i) ∧
    Memory.bitRead m p n < 2 ^ n

/-- The byte-level datapath of `bit_field_reader` computes the field's value; a field of at most 32 bits spans at most five
bytes (41_bit_field_reader.md R67). The equality and the bound are the spec's own inferences, marked derived in R67; that
READ's meaning is the bit-level rule, with the datapath beside it, is the model's: log entry 17. -/
def Obligations.ReadDatapathComputesTheField : Prop :=
  ∀ (m : Memory) (k ct : Nat), 1 ≤ ct →
    readDatapath m k ct = Memory.bitRead m k ct ∧ (ct ≤ 32 → (k + ct - 1) / 8 - k / 8 + 1 ≤ 5)

/-- A READ that succeeds, then `SEEK -ct`, restores `B`, `LEN` and `BIT_INDEX` (41_bit_field_reader.md R68, last case). -/
def Obligations.SeekBackUndoesARead : Prop :=
  ∀ (s t : State) (ct : Nat), (Instr.read ct).wf = true → s.Inv → exec (.read ct) s = .next t →
    t.rspStatus = 0 → ∃ u, exec (.seek (-(ct : Int))) t = .next u ∧ s.SameArch u ∧ u.rspStatus = 0

/-! ### WRITE -/

/-- WRITE as its pseudocode has it: Capacity when the grown length passes `BUF_CAP`, with only the response changed; else the
buffer has length `max(L, ceil8(k + ct))`, the `ct` bits at `k` are the low `ct` bits of the value, most significant first,
every other bit of the buffer is as before and zero where it is new, `BIT_INDEX` advances by `ct`, and the answer is OK with
data 0 (42_bit_field_writer.md R72 to R75). -/
def Obligations.WriteGrowsAndPutsTheField : Prop :=
  ∀ (s : State) (ct : Nat) (v : BitVec 32), (Instr.write ct v).wf = true → s.Inv →
    let newLen := max s.len.toNat ((s.bitIndex.toNat + ct + 7) / 8)
    (s.bufCap.val < newLen →
      exec (.write ct v) s = .next { s with rspStatus := 3, rspData := 0, phase := .resp }) ∧
    (newLen ≤ s.bufCap.val → ∃ t,
      exec (.write ct v) s = .next t ∧ s.SameRest t ∧
      t.phase = .resp ∧ t.rspStatus = 0 ∧ t.rspData = 0 ∧
      t.len.toNat = newLen ∧ t.bitIndex.toNat = s.bitIndex.toNat + ct ∧
      ∀ p, t.bitAt p =
        if s.bitIndex.toNat ≤ p ∧ p < s.bitIndex.toNat + ct then
          v.getLsbD (ct - 1 - (p - s.bitIndex.toNat))
        else s.bitAt p)

/-- WRITE answers CAPACITY exactly when `max(L, ceil8(k + ct)) > BUF_CAP`, and then there is no partial growth, no partial
write and no advance (42_bit_field_writer.md R76). -/
def Obligations.CapacityExactlyWhenAWriteOutgrowsTheBuffer : Prop :=
  ∀ (s t : State) (ct : Nat) (v : BitVec 32), exec (.write ct v) s = .next t →
    (t.rspStatus = 3 ↔ s.bufCap.val < max s.len.toNat ((s.bitIndex.toNat + ct + 7) / 8)) ∧
    (t.rspStatus = 3 → s.SameArch t ∧ t.rspData = 0)

/-- A WRITE grows the buffer to exactly `ceil(max(k + ct, 8*L) / 8)` bytes, at most four more than it had, leaves no gap between
the old end and the field, and the bits of the new bytes it does not target read as zero (42_bit_field_writer.md R73, R81). -/
def Obligations.WriteGrowthIsMinimal : Prop :=
  ∀ (s t : State) (ct : Nat) (v : BitVec 32), (Instr.write ct v).wf = true → s.Inv →
    exec (.write ct v) s = .next t → t.rspStatus = 0 →
      t.len.toNat = (max (s.bitIndex.toNat + ct) (8 * s.len.toNat) + 7) / 8 ∧
      t.len.toNat ≤ s.len.toNat + 4 ∧
      s.bitIndex.toNat / 8 ≤ s.len.toNat ∧
      ∀ p, 8 * s.len.toNat ≤ p → s.bitIndex.toNat + ct ≤ p → t.bitAt p = false

/-- The byte-level datapath of `bit_field_writer` computes the same buffer as the bit-level rule
(42_bit_field_writer.md R77 to R79). The equality is the spec's own inference, marked derived in R77; that WRITE's meaning is
the bit-level rule, with the datapath beside it, is the model's: log entry 17. -/
def Obligations.WriteDatapathComputesTheField : Prop :=
  ∀ (m : Memory) (k ct v : Nat), Memory.wf m = true → 1 ≤ ct → v < 2 ^ ct →
    writeDatapath m k ct v = Memory.bitWrite m k ct v

/-- Write/read inverse: after a WRITE that succeeds, any cursor over the same buffer at the offset written reads back the low
`ct` bits of the value (42_bit_field_writer.md R81, first law). -/
def Obligations.ReadBackGivesTheMaskedValue : Prop :=
  ∀ (s t u : State) (ct : Nat) (v : BitVec 32), (Instr.write ct v).wf = true → s.Inv →
    exec (.write ct v) s = .next t → t.rspStatus = 0 →
    u.mem = t.mem → u.len = t.len → u.bitIndex = s.bitIndex →
      ∃ w, exec (.read ct) u = .next w ∧ w.rspStatus = 0 ∧ w.rspData.toNat = v.toNat % 2 ^ ct ∧
        w.bitIndex = t.bitIndex

/-! ### SEEK, INDEX, CLEAR, APPEND -/

/-- SEEK moves to `clamp(k + delta, 0, 8*L)`, the sum exact, answers OK with data 0, and changes nothing else
(43_bit_cursor_engine.md R84). -/
def Obligations.SeekClampsTheExactSum : Prop :=
  ∀ (s : State) (d : Int), (Instr.seek d).wf = true → s.Inv → ∃ t,
    exec (.seek d) s = .next t ∧
    t = { s with bitIndex := t.bitIndex, rspStatus := 0, rspData := 0, phase := .resp } ∧
    (t.bitIndex.toNat : Int) = min (max ((s.bitIndex.toNat : Int) + d) 0) (8 * s.len.toNat)

/-- SEEK never leaves the bit index outside the buffer, however large or negative the delta, and a negative delta larger in
magnitude than the index gives 0, never a large unsigned value (43_bit_cursor_engine.md R85). -/
def Obligations.SeekNeverWrapsNorLeavesTheBuffer : Prop :=
  ∀ (s t : State) (d : Int), s.Inv → exec (.seek d) s = .next t →
    t.bitIndex.toNat ≤ 8 * t.len.toNat ∧
    ((s.bitIndex.toNat : Int) < -d → t.bitIndex = 0)

/-- INDEX returns the bit index with status OK and writes no architectural state (43_bit_cursor_engine.md R88). -/
def Obligations.IndexReturnsTheBitIndex : Prop :=
  ∀ s : State, exec .index s = .next { s with rspStatus := 0, rspData := s.bitIndex, phase := .resp }

/-- CLEAR empties the buffer and its registers, as reset does, and answers OK with data 0 (43_bit_cursor_engine.md R89). -/
def Obligations.ClearEmptiesTheCursor : Prop :=
  ∀ s : State,
    exec .clear s =
      .next { s with mem := [], len := 0, bitIndex := 0, rspStatus := 0, rspData := 0, phase := .resp } ∧
    ∀ t, exec .clear s = .next t → t.bytes = [] ∧ (State.resetWith s.bufCap).SameArch t

/-- APPEND: Capacity when `L + 1 > BUF_CAP`, with only the response changed; else the byte at address `L`, every other byte as
before, `LEN` one larger, `BIT_INDEX` unchanged, OK with data 0 (43_bit_cursor_engine.md R90). -/
def Obligations.AppendAddsOneByteAtTheTail : Prop :=
  ∀ (s : State) (b : Byte), s.Inv →
    (s.bufCap.val < s.len.toNat + 1 →
      exec (.append b) s = .next { s with rspStatus := 3, rspData := 0, phase := .resp }) ∧
    (s.len.toNat + 1 ≤ s.bufCap.val → ∃ t,
      exec (.append b) s = .next t ∧ s.SameRest t ∧
      t.phase = .resp ∧ t.rspStatus = 0 ∧ t.rspData = 0 ∧
      t.len.toNat = s.len.toNat + 1 ∧ t.bitIndex = s.bitIndex ∧ t.bytes = s.bytes ++ [b] ∧
      ∀ a, t.byteAt a = if a = s.len.toNat then b else s.byteAt a)

/-! ### Frames -/

/-- The frame of READ, SEEK and INDEX, which store nothing: the buffer, its length, the parameter and the host's lists are
unchanged, every byte reads as before, and INDEX also keeps the bit index (20_memory.md R39, 10_state.md R29). -/
def Obligations.ReadSeekIndexStoreNothing : Prop :=
  ∀ (i : Instr) (s t : State), ((∃ ct, i = .read ct) ∨ (∃ d, i = .seek d) ∨ i = .index) →
    exec i s = .next t →
      t.mem = s.mem ∧ t.len = s.len ∧ s.SameRest t ∧ t.phase = .resp ∧
      (∀ a, t.byteAt a = s.byteAt a) ∧ (i = .index → t.bitIndex = s.bitIndex)

/-- The frame of WRITE and APPEND, which store: the parameter and the host's lists are unchanged; every byte outside those that
hold the field `[k, k + ct)` reads as before a WRITE, and every byte but that at address `L` as before an APPEND, which also
keeps the bit index (42_bit_field_writer.md R74, 43_bit_cursor_engine.md R90). -/
def Obligations.WriteAndAppendStoreOnlyWhereTheySay : Prop :=
  (∀ (s t : State) (ct : Nat) (v : BitVec 32), (Instr.write ct v).wf = true → s.Inv →
    exec (.write ct v) s = .next t →
      s.SameRest t ∧ t.phase = .resp ∧
      ∀ a, a < s.bitIndex.toNat / 8 ∨ (s.bitIndex.toNat + ct - 1) / 8 < a → t.byteAt a = s.byteAt a) ∧
  (∀ (s t : State) (b : Byte), s.Inv → exec (.append b) s = .next t →
      s.SameRest t ∧ t.phase = .resp ∧ t.bitIndex = s.bitIndex ∧
      ∀ a, a ≠ s.len.toNat → t.byteAt a = s.byteAt a)

/-- CLEAR is the only command that shortens the buffer, and only WRITE, APPEND and CLEAR change any byte of it
(10_state.md R17). -/
def Obligations.OnlyClearShrinksTheBuffer : Prop :=
  ∀ (i : Instr) (s t : State), exec i s = .next t →
    (i ≠ .clear → s.len.toNat ≤ t.len.toNat) ∧
    ((∃ a, t.byteAt a ≠ s.byteAt a) → (∃ ct v, i = .write ct v) ∨ i = .clear ∨ ∃ b, i = .append b)

/-- What each command writes: READ and SEEK no more of `B`, `LEN`, `BIT_INDEX` than `BIT_INDEX`, INDEX nothing, APPEND no more
than `B` and `LEN`; and a command that does not end in OK writes none of them (10_state.md R29, write sets). -/
def Obligations.CommandsWriteOnlyTheirWriteSets : Prop :=
  ∀ (i : Instr) (s t : State), exec i s = .next t →
    (t.rspStatus ≠ 0 → s.SameArch t) ∧
    ((∃ ct, i = .read ct) ∨ (∃ d, i = .seek d) → t.mem = s.mem ∧ t.len = s.len) ∧
    (i = .index → s.SameArch t) ∧
    ((∃ b, i = .append b) → t.bitIndex = s.bitIndex) ∧
    s.SameRest t

/-- What each command reads: SEEK only `LEN` and `BIT_INDEX`, INDEX only `BIT_INDEX`, CLEAR nothing, and APPEND, for its answer
and the new length, only `LEN` and the capacity (10_state.md R29, read sets). -/
def Obligations.CommandsReadOnlyTheirReadSets : Prop :=
  ∀ (i : Instr) (s s' t t' : State), exec i s = .next t → exec i s' = .next t' →
    ((∃ d, i = .seek d) → s.len = s'.len → s.bitIndex = s'.bitIndex →
      t.bitIndex = t'.bitIndex ∧ t.SameRsp t') ∧
    (i = .index → s.bitIndex = s'.bitIndex → t.SameRsp t') ∧
    (i = .clear → t.SameArch t' ∧ t.SameRsp t') ∧
    ((∃ b, i = .append b) → s.len = s'.len → s.bufCap = s'.bufCap → t.len = t'.len ∧ t.SameRsp t')

/-! ### Errors and outcomes -/

/-- An error is not a trap: when an accepted word ends in any status but OK, only `RSP_STATUS`, `RSP_DATA` and `PHASE` change,
data is 0, and once the response is taken the block is idle with the same architectural state (60_exceptions.md R103). That the
next step takes the response is the dutiful host of the model's step, the model's choice: log entry 1. -/
def Obligations.ErrorsChangeOnlyTheResponse : Prop :=
  ∀ (c : Word) (s t : State), execute c s = .next t → t.rspStatus ≠ 0 →
    t = { s with rspStatus := t.rspStatus, rspData := 0, phase := .resp } ∧
    ∃ u, step t = .next u ∧ u.phase = .idle ∧ s.SameArch u

/-- Every accepted word ends in exactly one of the four outcomes, ILLEGAL before the command's own check: ILLEGAL for a word
that does not decode, OVERREAD for a READ past the end, CAPACITY for a WRITE or APPEND past the capacity, OK otherwise
(60_exceptions.md R99, R104). -/
def Obligations.EveryWordEndsInOneOfFourOutcomes : Prop :=
  ∀ (c : Word) (s : State), ∃ t, execute c s = .next t ∧ t.phase = .resp ∧ t.rspStatus.toNat ≤ 3 ∧
    (t.rspStatus = 2 ↔ ∃ e, decode c = .error e) ∧
    (t.rspStatus = 1 ↔ ∃ ct, decode c = .ok (.read ct) ∧ 8 * s.len.toNat < s.bitIndex.toNat + ct) ∧
    (t.rspStatus = 3 ↔
      (∃ ct v, decode c = .ok (.write ct v) ∧
        s.bufCap.val < max s.len.toNat ((s.bitIndex.toNat + ct + 7) / 8)) ∨
      (∃ b, decode c = .ok (.append b) ∧ s.bufCap.val < s.len.toNat + 1))

/-- The response's data is a READ's value, INDEX's bit index, and 0 for every other response (30_encoding.md R60). -/
def Obligations.ResponseDataIsAValueOrZero : Prop :=
  ∀ (c : Word) (s t : State), execute c s = .next t →
    (∀ ct, decode c = .ok (.read ct) → t.rspStatus = 0 →
      t.rspData.toNat = Memory.bitRead s.mem s.bitIndex.toNat ct) ∧
    (decode c = .ok .index → t.rspStatus = 0 ∧ t.rspData = s.bitIndex) ∧
    (((∀ ct, decode c ≠ .ok (.read ct)) ∧ decode c ≠ .ok .index) ∨ t.rspStatus ≠ 0 → t.rspData = 0)

/-! ### Invariants and whole runs -/

/-- Every step keeps a legal state legal: memory canonical and within the buffer, `LEN <= BUF_CAP`, `BIT_INDEX <= 8*LEN`, and a
held response one the block produces (10_state.md R18, R20, 30_encoding.md R60). The step is the model's: log entry 1. -/
def Obligations.EveryStepKeepsTheInvariant : Prop :=
  ∀ s t : State, s.Inv → step s = .next t → t.Inv

/-- Every clock edge keeps a legal state legal, whatever the inputs and the latency (10_state.md R20). -/
def Obligations.EveryEdgeKeepsTheInvariant : Prop :=
  ∀ (s t : State) (lat : Nat) (p : PortIn), s.Inv → edge lat p s = .next t → t.Inv

/-- The state after reset is legal, for every capacity, and so is `State.reset` (10_state.md R20, R27). -/
def Obligations.ResetMeetsTheInvariant : Prop :=
  (∀ cap, (State.resetWith cap).Inv) ∧ State.reset.Inv

/-- From a legal state every run is safe: no step stops, and every state it reaches is legal
(10_state.md R20, 60_exceptions.md R103, 70_reset_and_hazards.md R125). The run is of the model's step: log entry 1. -/
def Obligations.EveryRunFromALegalStateIsSafe : Prop :=
  ∀ (s : State) (k : Nat), s.Inv → SafeRun s k

/-- A command's effect and answer depend on `B`, `LEN`, `BIT_INDEX` and the capacity alone: not on `PHASE`, not on what the
response registers held, not on the host's lists (10_state.md R24, 43_bit_cursor_engine.md R98). -/
def Obligations.ResultsIgnoreTheInterfaceState : Prop :=
  ∀ (c : Word) (s s' t t' : State), s.SameArch s' → s.bufCap = s'.bufCap →
    execute c s = .next t → execute c s' = .next t' → t.SameArch t' ∧ t.SameRsp t'

/-! ### Reset and the ports -/

/-- What reset leaves, for every capacity: the empty buffer, both registers 0, IDLE (10_state.md R27). The response registers
are unspecified there, and nothing is said of them. Which capacity `State.reset` has is the model's choice: log entry 3. -/
def Obligations.ResetLeavesAnEmptyIdleCursor : Prop :=
  (∀ cap, (State.resetWith cap).bytes = [] ∧ (State.resetWith cap).mem = [] ∧ (State.resetWith cap).len = 0 ∧
    (State.resetWith cap).bitIndex = 0 ∧ (State.resetWith cap).phase = .idle ∧
    (State.resetWith cap).bufCap = cap) ∧
  ∃ cap, State.reset = State.resetWith cap

/-- An edge with `rst = 1` resets whatever the phase and the other inputs: a command in flight is not applied and a held
response is dropped (70_reset_and_hazards.md R115, R116). -/
def Obligations.ResetEdgeWinsAndAborts : Prop :=
  ∀ (s : State) (lat : Nat) (p : PortIn), p.rst = true → ∃ t,
    edge lat p s = .next t ∧ t.mem = [] ∧ t.len = 0 ∧ t.bitIndex = 0 ∧ t.phase = .idle ∧ t.bytes = [] ∧
    (outputs p t).rspValid = false

/-- The readback port shows the byte below `LEN` and `0x00` at and above it, in IDLE and RESP, and no value in BUSY
(43_bit_cursor_engine.md R96). -/
def Obligations.ReadbackPortShowsTheBuffer : Prop :=
  ∀ (p : PortIn) (s : State),
    (s.phase = .idle ∨ s.phase = .resp → (outputs p s).rbData =
      some (if p.rbAddr.toNat < s.len.toNat then Memory.read s.mem p.rbAddr.toNat else 0)) ∧
    (∀ c n, s.phase = .busy c n → (outputs p s).rbData = none)

/-- The other outputs: `cmd_ready` exactly in IDLE, `rsp_valid` exactly in RESP and then the held response, the status outputs
`LEN` and `BIT_INDEX` but in BUSY, where they give no value (43_bit_cursor_engine.md R92, R94, R97). -/
def Obligations.HandshakeAndStatusOutputs : Prop :=
  ∀ (p : PortIn) (s : State),
    ((outputs p s).cmdReady = true ↔ s.phase = .idle) ∧
    ((outputs p s).rspValid = true ↔ s.phase = .resp) ∧
    (s.phase = .resp → (outputs p s).rspStatus = some s.rspStatus ∧ (outputs p s).rspData = some s.rspData) ∧
    (s.phase = .idle ∨ s.phase = .resp → (outputs p s).lenO = some s.len ∧
      (outputs p s).bitIndexO = some s.bitIndex) ∧
    (∀ c n, s.phase = .busy c n → (outputs p s).lenO = none ∧ (outputs p s).bitIndexO = none)

/-- The handshake at an edge without reset: a command presented to an idle block is accepted, an idle block with none waits, a
held response stays, unchanged, while the host is not ready and is let go when it is; none of these touches the
architectural state (43_bit_cursor_engine.md R92, R94, 60_exceptions.md R114). -/
def Obligations.HandshakeMovesOnlyThePhase : Prop :=
  ∀ (s : State) (lat : Nat) (p : PortIn), p.rst = false →
    (s.phase = .idle → p.cmdValid = true → ∃ t, edge lat p s = .next t ∧ s.SameArch t ∧
      t.phase = .busy p.cmdData (lat - 1)) ∧
    (s.phase = .idle → p.cmdValid = false → ∃ t, edge lat p s = .next t ∧ s.SameArch t ∧ t.phase = .idle) ∧
    (s.phase = .resp → p.rspReady = false → edge lat p s = .next s) ∧
    (s.phase = .resp → p.rspReady = true → ∃ t, edge lat p s = .next t ∧ s.SameArch t ∧ t.phase = .idle)

/-- The block edge by edge refines the step: a command accepted with latency `lat` completes exactly `lat` edges later,
whatever the inputs meanwhile (but reset), with the step's effect and answer; until then no part of its effect shows
(43_bit_cursor_engine.md R93, R98, 20_memory.md R36, 70_reset_and_hazards.md R125). The step is the model's: log entry 1. -/
def Obligations.ClockedBlockRefinesTheStep : Prop :=
  ∀ (s : State) (c : Word) (cs : List Word) (lat : Nat) (p : PortIn) (ps : List (Nat × PortIn)),
    s.phase = .idle → s.cmds = c :: cs → 1 ≤ lat →
    p.rst = false → p.cmdValid = true → p.cmdData = c → (∀ q ∈ ps, q.2.rst = false) →
      (ps.length = lat → ∃ t u, step s = .next t ∧ edges ((lat, p) :: ps) s = .next u ∧
        t.phase = .resp ∧ t.SameArch u ∧ t.SameRsp u) ∧
      (ps.length < lat → ∃ u, edges ((lat, p) :: ps) s = .next u ∧ s.SameArch u ∧
        u.phase = .busy c (lat - 1 - ps.length))

/-! ### Command sequences the spec defines -/

/-- ATTACH: the host presents CLEAR and one APPEND per byte, and if the bytes fit, the buffer is exactly those bytes,
`BIT_INDEX` is 0, and every answer was OK with data 0 (30_encoding.md R62, 43_bit_cursor_engine.md R91). The run of two
steps a command and the host's lists are the model's choice: log entries 1 and 2. -/
def Obligations.AttachLoadsTheInitialBuffer : Prop :=
  ∀ (s : State) (bs : List Byte) (rest : List Word), s.Inv → s.phase = .idle →
    s.cmds = (attach bs).map encode ++ rest → bs.length ≤ s.bufCap.val → ∃ t : State,
      Sys2Proof.core.run (2 * (bs.length + 1)) s = .next t ∧
      t.bytes = bs ∧ t.len.toNat = bs.length ∧ t.bitIndex = 0 ∧ t.phase = .idle ∧ t.cmds = rest ∧
      t.taken = s.taken ++ List.replicate (bs.length + 1) (0, 0)

/-- SEEKL: its SEEKs, each one a single SEEK can spell, have the effect of one unbounded seek by the whole delta
(30_encoding.md R62). How the magnitudes are cut, and the run of two steps a command over the host's list, are the model's choice:
log entries 15, 1 and 2. -/
def Obligations.SeeklIsOneUnboundedSeek : Prop :=
  ∀ (s : State) (d : Int) (rest : List Word), s.Inv → s.phase = .idle →
    s.cmds = (seekl d).map encode ++ rest →
      ((seekl d).length = max 1 ((d.natAbs + (2 ^ 31 - 2)) / (2 ^ 31 - 1)) ∧ ∀ i ∈ seekl d, i.wf = true) ∧
      ∃ t : State, Sys2Proof.core.run (2 * (seekl d).length) s = .next t ∧
        (t.bitIndex.toNat : Int) = min (max ((s.bitIndex.toNat : Int) + d) 0) (8 * s.len.toNat) ∧
        t.mem = s.mem ∧ t.len = s.len ∧ t.phase = .idle ∧ t.cmds = rest

/-- Round trip: from bit index 0, READs of widths `ws` that fit the buffer answer OK with values whose join, most significant
bit first, is the first `Σ ws` bits of the buffer (41_bit_field_reader.md R70, 20_memory.md R34). The run of two
steps a command, the host's list of commands and its list of responses taken are the model's choice: log entries 1 and 2. -/
def Obligations.ReadingFieldsInOrderReproducesTheBits : Prop :=
  ∀ (s : State) (ws : List Nat) (rest : List Word), s.Inv → s.phase = .idle → s.bitIndex = 0 →
    (∀ w ∈ ws, 1 ≤ w ∧ w ≤ 32) → ws.sum ≤ 8 * s.len.toNat →
    s.cmds = (ws.map fun w => encode (.read w)) ++ rest → ∃ (t : State) (vs : List Nat),
      Sys2Proof.core.run (2 * ws.length) s = .next t ∧
      t.taken = s.taken ++ vs.map (fun v => (0, BitVec.ofNat 64 v)) ∧
      List.Forall₂ (fun w v => v < 2 ^ w) ws vs ∧
      joinFields 0 ws vs = Memory.bitRead s.mem 0 ws.sum ∧
      t.bitIndex.toNat = ws.sum
end

