-- ==== Sys2Proof/Laws/Encoding.lean ====
section
/-! SUPPORT. The fields of a packed command word, and the word of its fields. -/

namespace Sys2Proof

variable (op : BitVec 4) (wm1 : BitVec 5) (imm : BitVec 32)

/-- The bits of a packed word, field by field (30_encoding.md R44). -/
theorem packWord_getLsbD (i : Nat) :
    (packWord op wm1 imm).getLsbD i =
      if i < 32 then imm.getLsbD i
      else if i < 37 then wm1.getLsbD (i - 32)
      else if i < 60 then false
      else op.getLsbD (i - 60) := by
  change ((op ++ 0#23 ++ wm1 ++ imm : BitVec (4 + 23 + 5 + 32))).getLsbD i = _
  rw [BitVec.getLsbD_append, BitVec.getLsbD_append, BitVec.getLsbD_append]
  by_cases h1 : i < 32
  · simp [h1]
  · by_cases h2 : i < 37
    · have : i - 32 < 5 := by omega
      simp [h1, h2, this]
    · have h3 : ¬ (i - 32 < 5) := by omega
      by_cases h4 : i < 60
      · have : i - 32 - 5 < 23 := by omega
        simp [h1, h2, h3, h4, this]
      · have h5 : ¬ (i - 32 - 5 < 23) := by omega
        have h6 : i - 32 - 5 - 23 = i - 60 := by omega
        simp [h1, h2, h3, h4, h5, h6]

@[simp] theorem opField_packWord : opField (packWord op wm1 imm) = op := by
  apply BitVec.eq_of_getLsbD_eq
  intro i hi
  rw [opField, BitVec.getLsbD_extractLsb', packWord_getLsbD]
  rw [if_neg (by omega), if_neg (by omega), if_neg (by omega), Nat.add_sub_cancel_left]
  simp [hi]

@[simp] theorem rsvField_packWord : rsvField (packWord op wm1 imm) = 0 := by
  apply BitVec.eq_of_getLsbD_eq
  intro i hi
  rw [rsvField, BitVec.getLsbD_extractLsb', packWord_getLsbD]
  rw [if_neg (by omega), if_neg (by omega), if_pos (by omega)]
  simp

@[simp] theorem wm1Field_packWord : wm1Field (packWord op wm1 imm) = wm1 := by
  apply BitVec.eq_of_getLsbD_eq
  intro i hi
  rw [wm1Field, BitVec.getLsbD_extractLsb', packWord_getLsbD]
  have h : 32 + i < 37 := by omega
  simp [hi, h]

@[simp] theorem immField_packWord : immField (packWord op wm1 imm) = imm := by
  apply BitVec.eq_of_getLsbD_eq
  intro i hi
  rw [immField, BitVec.getLsbD_extractLsb', packWord_getLsbD]
  simp [hi]

/-- A word whose reserved bits are zero is the word of its other fields. -/
theorem packWord_fields {c : Word} (h : rsvField c = 0) :
    packWord (opField c) (wm1Field c) (immField c) = c := by
  apply BitVec.eq_of_getLsbD_eq
  intro i hi
  rw [packWord_getLsbD]
  by_cases h1 : i < 32
  · simp [h1, immField]
  · by_cases h2 : i < 37
    · have h3 : i - 32 < 5 := by omega
      have e : 32 + (i - 32) = i := by omega
      simp [h1, h2, h3, e, wm1Field]
    · by_cases h4 : i < 60
      · have hr := congrArg (fun x => x.getLsbD (i - 37)) h
        have h3 : i - 37 < 23 := by omega
        have e : 37 + (i - 37) = i := by omega
        simp [rsvField, h3, e] at hr
        simp [h1, h2, h4, hr]
      · have h3 : i - 60 < 4 := by omega
        have e : 60 + (i - 60) = i := by omega
        simp [h1, h2, h4, h3, e, opField]

end Sys2Proof
end

