-- ==== Sys2Proof/Laws/Memory.lean ====
section
/-! SUPPORT. The laws of memory: reading after writing, and that every memory operation keeps the canonical form. -/

namespace Sys2Proof.Machine.Memory

/-! ### The canonical form -/

theorem wfFrom_cons {lo a : Nat} {v : Byte} {m : Memory} :
    wfFrom lo ((a, v) :: m) = true ↔ lo ≤ a ∧ v ≠ unlisted ∧ wfFrom (a + 1) m = true := by
  simp [wfFrom, and_assoc]

theorem wfFrom_mono {lo lo' : Nat} {m : Memory} (h : wfFrom lo' m = true) (hl : lo ≤ lo') :
    wfFrom lo m = true := by
  cases m with
  | nil => rfl
  | cons c m =>
    obtain ⟨a, v⟩ := c
    rw [wfFrom_cons] at h ⊢
    exact ⟨le_trans hl h.1, h.2⟩

theorem wf_nil : wf [] = true := rfl

/-- Below the first possible address nothing is listed. -/
theorem read_of_lt {lo a : Nat} {m : Memory} (h : wfFrom lo m = true) (ha : a < lo) :
    read m a = unlisted := by
  induction m generalizing lo with
  | nil => rfl
  | cons c m ih =>
    obtain ⟨b, v⟩ := c
    rw [wfFrom_cons] at h
    rw [read, if_neg (by omega)]
    exact ih h.2.2 (by omega)

/-! ### Writing one byte -/

theorem wfFrom_put {lo a : Nat} {v : Byte} {m : Memory} (hl : lo ≤ a) (h : wfFrom (a + 1) m = true) :
    wfFrom lo (put a v m) = true := by
  unfold put
  split
  · exact wfFrom_mono h (by omega)
  · exact wfFrom_cons.2 ⟨hl, ‹_›, h⟩

theorem read_put {a x : Nat} {v : Byte} {m : Memory} (h : wfFrom (a + 1) m = true) :
    read (put a v m) x = if x = a then v else read m x := by
  unfold put
  split
  · subst v
    split
    · subst x; exact read_of_lt h (by omega)
    · rfl
  · rfl

theorem wfFrom_write {lo a : Nat} {v : Byte} {m : Memory} (h : wfFrom lo m = true) (hl : lo ≤ a) :
    wfFrom lo (write m a v) = true := by
  induction m generalizing lo with
  | nil => exact wfFrom_put hl rfl
  | cons c m ih =>
    obtain ⟨b, w⟩ := c
    rw [wfFrom_cons] at h
    rw [write]
    split
    · exact wfFrom_put hl (wfFrom_cons.2 ⟨by omega, h.2⟩)
    · split
      · subst a; exact wfFrom_put hl h.2.2
      · exact wfFrom_cons.2 ⟨h.1, h.2.1, ih h.2.2 (by omega)⟩

/-- Writing a byte keeps the canonical form. -/
theorem wf_write {m : Memory} (h : wf m = true) (a : Nat) (v : Byte) : wf (write m a v) = true :=
  wfFrom_write h (Nat.zero_le a)

theorem read_write_from {lo a x : Nat} {v : Byte} {m : Memory} (h : wfFrom lo m = true) :
    read (write m a v) x = if x = a then v else read m x := by
  induction m generalizing lo with
  | nil => exact read_put rfl
  | cons c m ih =>
    obtain ⟨b, w⟩ := c
    rw [wfFrom_cons] at h
    rw [write]
    split
    · exact read_put (wfFrom_cons.2 ⟨by omega, h.2⟩)
    · split
      · subst a
        rw [read_put h.2.2, read]
        split <;> rfl
      · rw [read, read, ih h.2.2]
        by_cases hx : x = b
        · subst x
          rw [if_pos rfl, if_pos rfl, if_neg (by omega)]
        · rw [if_neg hx, if_neg hx]

/-- A read after a write: the byte written at its address, every other byte as before. -/
theorem read_write {m : Memory} (h : wf m = true) (a x : Nat) (v : Byte) :
    read (write m a v) x = if x = a then v else read m x :=
  read_write_from h

/-! ### Zeroing the tail -/

theorem wfFrom_zeroFrom {lo n : Nat} {m : Memory} (h : wfFrom lo m = true) :
    wfFrom lo (zeroFrom m n) = true := by
  induction m generalizing lo with
  | nil => rfl
  | cons c m ih =>
    obtain ⟨b, w⟩ := c
    rw [wfFrom_cons] at h
    simp only [zeroFrom, List.filter_cons]
    split
    · exact wfFrom_cons.2 ⟨h.1, h.2.1, ih h.2.2⟩
    · exact wfFrom_mono (ih h.2.2) (by omega)

/-- Zeroing the tail keeps the canonical form. -/
theorem wf_zeroFrom {m : Memory} (h : wf m = true) (n : Nat) : wf (zeroFrom m n) = true :=
  wfFrom_zeroFrom h

/-- Zeroing from `n` on leaves the bytes below `n`. -/
theorem read_zeroFrom (m : Memory) (n x : Nat) :
    read (zeroFrom m n) x = if x < n then read m x else unlisted := by
  induction m with
  | nil => simp [zeroFrom, read]
  | cons c m ih =>
    obtain ⟨b, w⟩ := c
    simp only [zeroFrom] at ih
    simp only [zeroFrom, List.filter_cons]
    split
    · rename_i hb
      simp only [decide_eq_true_eq] at hb
      rw [read, read, ih]
      by_cases hx : x = b
      · subst x; simp [hb]
      · simp [hx]
    · rename_i hb
      simp only [decide_eq_true_eq] at hb
      rw [ih, read]
      by_cases hx : x < n
      · rw [if_pos hx, if_pos hx, if_neg (by omega)]
      · simp [hx]

/-! ### Bytes within the buffer -/

theorem below_put {m : Memory} {n a : Nat} {v : Byte} (h : below m n = true) (ha : a < n) :
    below (put a v m) n = true := by
  unfold put
  split
  · exact h
  · simpa [below, ha] using h

/-- A write below `n` lists nothing at or above `n`. -/
theorem below_write {m : Memory} {n a : Nat} (h : below m n = true) (ha : a < n) (v : Byte) :
    below (write m a v) n = true := by
  induction m with
  | nil => exact below_put h ha
  | cons c m ih =>
    obtain ⟨b, w⟩ := c
    have h' : b < n ∧ below m n = true := by simpa [below] using h
    rw [write]
    split
    · exact below_put h ha
    · split
      · exact below_put h'.2 ha
      · have := ih h'.2
        simp only [below, List.all_cons, Bool.and_eq_true, decide_eq_true_eq] at this ⊢
        exact ⟨h'.1, this⟩

theorem below_mono {m : Memory} {n n' : Nat} (h : below m n = true) (hn : n ≤ n') :
    below m n' = true := by
  simp only [below, List.all_eq_true, decide_eq_true_eq] at h ⊢
  exact fun c hc => lt_of_lt_of_le (h c hc) hn

theorem below_zeroFrom (m : Memory) (n : Nat) : below (zeroFrom m n) n = true := by
  simp [below, zeroFrom]

/-- Above the bytes listed every address reads as unlisted. -/
theorem read_of_below {m : Memory} {n a : Nat} (h : below m n = true) (ha : n ≤ a) :
    read m a = unlisted := by
  induction m with
  | nil => rfl
  | cons c m ih =>
    obtain ⟨b, w⟩ := c
    have h' : b < n ∧ below m n = true := by simpa [below] using h
    rw [read, if_neg (by omega)]
    exact ih h'.2

/-! ### Equal memories are equal data -/

theorem ext_from {lo : Nat} {m m' : Memory} (h : wfFrom lo m = true) (h' : wfFrom lo m' = true)
    (heq : ∀ a, read m a = read m' a) : m = m' := by
  induction m generalizing lo m' with
  | nil =>
    cases m' with
    | nil => rfl
    | cons c m' =>
      obtain ⟨b, w⟩ := c
      have := heq b
      rw [wfFrom_cons] at h'
      rw [read, read, if_pos rfl] at this
      exact absurd this.symm h'.2.1
  | cons c m ih =>
    obtain ⟨b, w⟩ := c
    rw [wfFrom_cons] at h
    cases m' with
    | nil =>
      have := heq b
      rw [read, read, if_pos rfl] at this
      exact absurd this h.2.1
    | cons c' m' =>
      obtain ⟨b', w'⟩ := c'
      rw [wfFrom_cons] at h'
      have hb : b = b' := by
        rcases lt_trichotomy b b' with hlt | rfl | hlt
        · have := heq b
          rw [read, if_pos rfl, read, if_neg (by omega), read_of_lt h'.2.2 (by omega)] at this
          exact absurd this h.2.1
        · rfl
        · have := heq b'
          rw [read, if_neg (by omega), read, if_pos rfl, read_of_lt h.2.2 (by omega)] at this
          exact absurd this.symm h'.2.1
      subst b'
      have hw : w = w' := by
        have := heq b
        rwa [read, if_pos rfl, read, if_pos rfl] at this
      subst w'
      have hrest : ∀ a, read m a = read m' a := by
        intro a
        by_cases ha : a = b
        · subst a
          rw [read_of_lt h.2.2 (by omega), read_of_lt h'.2.2 (by omega)]
        · have := heq a
          rwa [read, if_neg ha, read, if_neg ha] at this
      rw [ih h.2.2 h'.2.2 hrest]

/-- Two canonical memories that read alike everywhere are equal. -/
theorem ext_of_wf {m m' : Memory} (h : wf m = true) (h' : wf m' = true)
    (heq : ∀ a, read m a = read m' a) : m = m' :=
  ext_from h h' heq

end Sys2Proof.Machine.Memory
end

