-- ==== Sys2Proof/Laws/State.lean ====
section
/-! SUPPORT. What each named update of State does to each field. -/

namespace Sys2Proof.Machine

variable (s : State)

/-! ### `State.setBitIndex` -/

@[simp] theorem State.setBitIndex_mem (n : Nat) : (s.setBitIndex n).mem = s.mem := rfl
@[simp] theorem State.setBitIndex_len (n : Nat) : (s.setBitIndex n).len = s.len := rfl
@[simp] theorem State.setBitIndex_bitIndex (n : Nat) : (s.setBitIndex n).bitIndex = BitVec.ofNat 64 n := rfl
@[simp] theorem State.setBitIndex_phase (n : Nat) : (s.setBitIndex n).phase = s.phase := rfl
@[simp] theorem State.setBitIndex_rspStatus (n : Nat) : (s.setBitIndex n).rspStatus = s.rspStatus := rfl
@[simp] theorem State.setBitIndex_rspData (n : Nat) : (s.setBitIndex n).rspData = s.rspData := rfl
@[simp] theorem State.setBitIndex_bufCap (n : Nat) : (s.setBitIndex n).bufCap = s.bufCap := rfl
@[simp] theorem State.setBitIndex_freeCount (n : Nat) : (s.setBitIndex n).freeCount = s.freeCount := rfl
@[simp] theorem State.setBitIndex_cmds (n : Nat) : (s.setBitIndex n).cmds = s.cmds := rfl
@[simp] theorem State.setBitIndex_taken (n : Nat) : (s.setBitIndex n).taken = s.taken := rfl

/-! ### `State.grow` -/

@[simp] theorem State.grow_mem (n : Nat) : (s.grow n).mem = Memory.zeroFrom s.mem s.len.toNat := rfl
@[simp] theorem State.grow_len (n : Nat) : (s.grow n).len = BitVec.ofNat 64 n := rfl
@[simp] theorem State.grow_bitIndex (n : Nat) : (s.grow n).bitIndex = s.bitIndex := rfl
@[simp] theorem State.grow_phase (n : Nat) : (s.grow n).phase = s.phase := rfl
@[simp] theorem State.grow_rspStatus (n : Nat) : (s.grow n).rspStatus = s.rspStatus := rfl
@[simp] theorem State.grow_rspData (n : Nat) : (s.grow n).rspData = s.rspData := rfl
@[simp] theorem State.grow_bufCap (n : Nat) : (s.grow n).bufCap = s.bufCap := rfl
@[simp] theorem State.grow_freeCount (n : Nat) : (s.grow n).freeCount = s.freeCount := rfl
@[simp] theorem State.grow_cmds (n : Nat) : (s.grow n).cmds = s.cmds := rfl
@[simp] theorem State.grow_taken (n : Nat) : (s.grow n).taken = s.taken := rfl

/-! ### `State.appendByte` -/

@[simp] theorem State.appendByte_mem (b : Byte) : (s.appendByte b).mem = Memory.write (Memory.zeroFrom s.mem s.len.toNat) s.len.toNat b := rfl
@[simp] theorem State.appendByte_len (b : Byte) : (s.appendByte b).len = BitVec.ofNat 64 (s.len.toNat + 1) := rfl
@[simp] theorem State.appendByte_bitIndex (b : Byte) : (s.appendByte b).bitIndex = s.bitIndex := rfl
@[simp] theorem State.appendByte_phase (b : Byte) : (s.appendByte b).phase = s.phase := rfl
@[simp] theorem State.appendByte_rspStatus (b : Byte) : (s.appendByte b).rspStatus = s.rspStatus := rfl
@[simp] theorem State.appendByte_rspData (b : Byte) : (s.appendByte b).rspData = s.rspData := rfl
@[simp] theorem State.appendByte_bufCap (b : Byte) : (s.appendByte b).bufCap = s.bufCap := rfl
@[simp] theorem State.appendByte_freeCount (b : Byte) : (s.appendByte b).freeCount = s.freeCount := rfl
@[simp] theorem State.appendByte_cmds (b : Byte) : (s.appendByte b).cmds = s.cmds := rfl
@[simp] theorem State.appendByte_taken (b : Byte) : (s.appendByte b).taken = s.taken := rfl

/-! ### `State.putField` -/

@[simp] theorem State.putField_mem (ct v : Nat) : (s.putField ct v).mem = Memory.bitWrite s.mem s.bitIndex.toNat ct v := rfl
@[simp] theorem State.putField_len (ct v : Nat) : (s.putField ct v).len = s.len := rfl
@[simp] theorem State.putField_bitIndex (ct v : Nat) : (s.putField ct v).bitIndex = s.bitIndex := rfl
@[simp] theorem State.putField_phase (ct v : Nat) : (s.putField ct v).phase = s.phase := rfl
@[simp] theorem State.putField_rspStatus (ct v : Nat) : (s.putField ct v).rspStatus = s.rspStatus := rfl
@[simp] theorem State.putField_rspData (ct v : Nat) : (s.putField ct v).rspData = s.rspData := rfl
@[simp] theorem State.putField_bufCap (ct v : Nat) : (s.putField ct v).bufCap = s.bufCap := rfl
@[simp] theorem State.putField_freeCount (ct v : Nat) : (s.putField ct v).freeCount = s.freeCount := rfl
@[simp] theorem State.putField_cmds (ct v : Nat) : (s.putField ct v).cmds = s.cmds := rfl
@[simp] theorem State.putField_taken (ct v : Nat) : (s.putField ct v).taken = s.taken := rfl

/-! ### `State.emptyBuffer` -/

@[simp] theorem State.emptyBuffer_mem : s.emptyBuffer.mem = [] := rfl
@[simp] theorem State.emptyBuffer_len : s.emptyBuffer.len = 0 := rfl
@[simp] theorem State.emptyBuffer_bitIndex : s.emptyBuffer.bitIndex = 0 := rfl
@[simp] theorem State.emptyBuffer_phase : s.emptyBuffer.phase = s.phase := rfl
@[simp] theorem State.emptyBuffer_rspStatus : s.emptyBuffer.rspStatus = s.rspStatus := rfl
@[simp] theorem State.emptyBuffer_rspData : s.emptyBuffer.rspData = s.rspData := rfl
@[simp] theorem State.emptyBuffer_bufCap : s.emptyBuffer.bufCap = s.bufCap := rfl
@[simp] theorem State.emptyBuffer_freeCount : s.emptyBuffer.freeCount = s.freeCount := rfl
@[simp] theorem State.emptyBuffer_cmds : s.emptyBuffer.cmds = s.cmds := rfl
@[simp] theorem State.emptyBuffer_taken : s.emptyBuffer.taken = s.taken := rfl

/-! ### `State.respond` -/

@[simp] theorem State.respond_mem (st : Status) (d : Word) : (s.respond st d).mem = s.mem := rfl
@[simp] theorem State.respond_len (st : Status) (d : Word) : (s.respond st d).len = s.len := rfl
@[simp] theorem State.respond_bitIndex (st : Status) (d : Word) : (s.respond st d).bitIndex = s.bitIndex := rfl
@[simp] theorem State.respond_phase (st : Status) (d : Word) : (s.respond st d).phase = .resp := rfl
@[simp] theorem State.respond_rspStatus (st : Status) (d : Word) : (s.respond st d).rspStatus = st.code := rfl
@[simp] theorem State.respond_rspData (st : Status) (d : Word) : (s.respond st d).rspData = d := rfl
@[simp] theorem State.respond_bufCap (st : Status) (d : Word) : (s.respond st d).bufCap = s.bufCap := rfl
@[simp] theorem State.respond_freeCount (st : Status) (d : Word) : (s.respond st d).freeCount = s.freeCount := rfl
@[simp] theorem State.respond_cmds (st : Status) (d : Word) : (s.respond st d).cmds = s.cmds := rfl
@[simp] theorem State.respond_taken (st : Status) (d : Word) : (s.respond st d).taken = s.taken := rfl

/-! ### `State.raise` -/

@[simp] theorem State.raise_mem (st : Status) : (s.raise st).mem = s.mem := rfl
@[simp] theorem State.raise_len (st : Status) : (s.raise st).len = s.len := rfl
@[simp] theorem State.raise_bitIndex (st : Status) : (s.raise st).bitIndex = s.bitIndex := rfl
@[simp] theorem State.raise_phase (st : Status) : (s.raise st).phase = .resp := rfl
@[simp] theorem State.raise_rspStatus (st : Status) : (s.raise st).rspStatus = st.code := rfl
@[simp] theorem State.raise_rspData (st : Status) : (s.raise st).rspData = 0 := rfl
@[simp] theorem State.raise_bufCap (st : Status) : (s.raise st).bufCap = s.bufCap := rfl
@[simp] theorem State.raise_freeCount (st : Status) : (s.raise st).freeCount = s.freeCount := rfl
@[simp] theorem State.raise_cmds (st : Status) : (s.raise st).cmds = s.cmds := rfl
@[simp] theorem State.raise_taken (st : Status) : (s.raise st).taken = s.taken := rfl

/-! ### `State.freeRsp` -/

@[simp] theorem State.freeRsp_mem : s.freeRsp.mem = s.mem := rfl
@[simp] theorem State.freeRsp_len : s.freeRsp.len = s.len := rfl
@[simp] theorem State.freeRsp_bitIndex : s.freeRsp.bitIndex = s.bitIndex := rfl
@[simp] theorem State.freeRsp_phase : s.freeRsp.phase = s.phase := rfl
@[simp] theorem State.freeRsp_rspStatus : s.freeRsp.rspStatus = Config.freeRspStatus s.freeCount := rfl
@[simp] theorem State.freeRsp_rspData : s.freeRsp.rspData = Config.freeRspData s.freeCount := rfl
@[simp] theorem State.freeRsp_bufCap : s.freeRsp.bufCap = s.bufCap := rfl
@[simp] theorem State.freeRsp_freeCount : s.freeRsp.freeCount = s.freeCount + 1 := rfl
@[simp] theorem State.freeRsp_cmds : s.freeRsp.cmds = s.cmds := rfl
@[simp] theorem State.freeRsp_taken : s.freeRsp.taken = s.taken := rfl

/-! ### `State.accept` -/

@[simp] theorem State.accept_mem (c : Word) (lat : Nat) : (s.accept c lat).mem = s.mem := rfl
@[simp] theorem State.accept_len (c : Word) (lat : Nat) : (s.accept c lat).len = s.len := rfl
@[simp] theorem State.accept_bitIndex (c : Word) (lat : Nat) : (s.accept c lat).bitIndex = s.bitIndex := rfl
@[simp] theorem State.accept_phase (c : Word) (lat : Nat) : (s.accept c lat).phase = .busy c (lat - 1) := rfl
@[simp] theorem State.accept_rspStatus (c : Word) (lat : Nat) : (s.accept c lat).rspStatus = Config.freeRspStatus s.freeCount := rfl
@[simp] theorem State.accept_rspData (c : Word) (lat : Nat) : (s.accept c lat).rspData = Config.freeRspData s.freeCount := rfl
@[simp] theorem State.accept_bufCap (c : Word) (lat : Nat) : (s.accept c lat).bufCap = s.bufCap := rfl
@[simp] theorem State.accept_freeCount (c : Word) (lat : Nat) : (s.accept c lat).freeCount = s.freeCount + 1 := rfl
@[simp] theorem State.accept_cmds (c : Word) (lat : Nat) : (s.accept c lat).cmds = s.cmds := rfl
@[simp] theorem State.accept_taken (c : Word) (lat : Nat) : (s.accept c lat).taken = s.taken := rfl

/-! ### `State.takeRsp` -/

@[simp] theorem State.takeRsp_mem : s.takeRsp.mem = s.mem := rfl
@[simp] theorem State.takeRsp_len : s.takeRsp.len = s.len := rfl
@[simp] theorem State.takeRsp_bitIndex : s.takeRsp.bitIndex = s.bitIndex := rfl
@[simp] theorem State.takeRsp_phase : s.takeRsp.phase = .idle := rfl
@[simp] theorem State.takeRsp_rspStatus : s.takeRsp.rspStatus = Config.freeRspStatus s.freeCount := rfl
@[simp] theorem State.takeRsp_rspData : s.takeRsp.rspData = Config.freeRspData s.freeCount := rfl
@[simp] theorem State.takeRsp_bufCap : s.takeRsp.bufCap = s.bufCap := rfl
@[simp] theorem State.takeRsp_freeCount : s.takeRsp.freeCount = s.freeCount + 1 := rfl
@[simp] theorem State.takeRsp_cmds : s.takeRsp.cmds = s.cmds := rfl
@[simp] theorem State.takeRsp_taken : s.takeRsp.taken = s.taken := rfl

/-! ### `State.resetEdge` -/

@[simp] theorem State.resetEdge_mem : s.resetEdge.mem = [] := rfl
@[simp] theorem State.resetEdge_len : s.resetEdge.len = 0 := rfl
@[simp] theorem State.resetEdge_bitIndex : s.resetEdge.bitIndex = 0 := rfl
@[simp] theorem State.resetEdge_phase : s.resetEdge.phase = .idle := rfl
@[simp] theorem State.resetEdge_rspStatus : s.resetEdge.rspStatus = Config.freeRspStatus s.freeCount := rfl
@[simp] theorem State.resetEdge_rspData : s.resetEdge.rspData = Config.freeRspData s.freeCount := rfl
@[simp] theorem State.resetEdge_bufCap : s.resetEdge.bufCap = s.bufCap := rfl
@[simp] theorem State.resetEdge_freeCount : s.resetEdge.freeCount = s.freeCount + 1 := rfl
@[simp] theorem State.resetEdge_cmds : s.resetEdge.cmds = s.cmds := rfl
@[simp] theorem State.resetEdge_taken : s.resetEdge.taken = s.taken := rfl

/-! ### `State.hostTake` -/

@[simp] theorem State.hostTake_mem : s.hostTake.mem = s.mem := rfl
@[simp] theorem State.hostTake_len : s.hostTake.len = s.len := rfl
@[simp] theorem State.hostTake_bitIndex : s.hostTake.bitIndex = s.bitIndex := rfl
@[simp] theorem State.hostTake_phase : s.hostTake.phase = .idle := rfl
@[simp] theorem State.hostTake_rspStatus : s.hostTake.rspStatus = Config.freeRspStatus s.freeCount := rfl
@[simp] theorem State.hostTake_rspData : s.hostTake.rspData = Config.freeRspData s.freeCount := rfl
@[simp] theorem State.hostTake_bufCap : s.hostTake.bufCap = s.bufCap := rfl
@[simp] theorem State.hostTake_freeCount : s.hostTake.freeCount = s.freeCount + 1 := rfl
@[simp] theorem State.hostTake_cmds : s.hostTake.cmds = s.cmds.tail := rfl
@[simp] theorem State.hostTake_taken : s.hostTake.taken = s.taken ++ [(s.rspStatus, s.rspData)] := rfl

/-! ### `State.present` -/

@[simp] theorem State.present_mem (c : Word) : (s.present c).mem = s.mem := rfl
@[simp] theorem State.present_len (c : Word) : (s.present c).len = s.len := rfl
@[simp] theorem State.present_bitIndex (c : Word) : (s.present c).bitIndex = s.bitIndex := rfl
@[simp] theorem State.present_phase (c : Word) : (s.present c).phase = .idle := rfl
@[simp] theorem State.present_rspStatus (c : Word) : (s.present c).rspStatus = s.rspStatus := rfl
@[simp] theorem State.present_rspData (c : Word) : (s.present c).rspData = s.rspData := rfl
@[simp] theorem State.present_bufCap (c : Word) : (s.present c).bufCap = s.bufCap := rfl
@[simp] theorem State.present_freeCount (c : Word) : (s.present c).freeCount = s.freeCount := rfl
@[simp] theorem State.present_cmds (c : Word) : (s.present c).cmds = c :: s.cmds.tail := rfl
@[simp] theorem State.present_taken (c : Word) : (s.present c).taken = s.taken := rfl

end Sys2Proof.Machine
end

