-- ==== Sys2Proof/Laws/Field.lean ====
section
/-! SUPPORT. The laws of bits and fields: what setting a bit, writing a field and reading a field do. -/

namespace Sys2Proof.Machine

/-! ### Bit offsets -/

theorem bitWeight_lt (p : Nat) : bitWeight p < 8 := by unfold bitWeight; omega

/-- A bit offset is its byte and its weight. -/
theorem bitOffset_ext {p q : Nat} (hd : p / 8 = q / 8) (hw : bitWeight p = bitWeight q) : p = q := by
  unfold bitWeight at hw; omega

theorem byteWithBit_getLsbD (x : Byte) {i j : Nat} (hi : i < 8) (hj : j < 8) (b : Bool) :
    (byteWithBit x i b).getLsbD j = if j = i then b else x.getLsbD j := by
  have hbit : ((1#8) <<< i).getLsbD j = decide (j = i) := by
    rw [BitVec.getLsbD_shiftLeft]
    by_cases h : j = i
    · subst h; simp [hj]
    · by_cases hlt : j < i
      · simp [hlt, h]
      · have hne : j - i ≠ 0 := by omega
        simp [hlt, h, hne]
  cases b
  · rw [byteWithBit, if_neg Bool.false_ne_true, BitVec.getLsbD_and, BitVec.getLsbD_not, hbit]
    by_cases h : j = i <;> simp [h, hj]
  · rw [byteWithBit, if_pos rfl, BitVec.getLsbD_or, hbit]
    by_cases h : j = i <;> simp [h]

/-! ### Setting one bit -/

/-- Setting a bit keeps the canonical form. -/
theorem Memory.wf_setBit {m : Memory} (h : Memory.wf m = true) (p : Nat) (b : Bool) :
    Memory.wf (Memory.setBit m p b) = true := Memory.wf_write h _ _

theorem Memory.below_setBit {m : Memory} {n p : Nat} (h : Memory.below m n = true) (hp : p / 8 < n)
    (b : Bool) : Memory.below (Memory.setBit m p b) n = true := Memory.below_write h hp _

/-- Setting a bit changes that bit and no other. -/
theorem Memory.bit_setBit {m : Memory} (h : Memory.wf m = true) (p q : Nat) (b : Bool) :
    Memory.bit (Memory.setBit m p b) q = if q = p then b else Memory.bit m q := by
  unfold Memory.bit Memory.setBit
  rw [Memory.read_write h]
  by_cases hd : q / 8 = p / 8
  · rw [if_pos hd, byteWithBit_getLsbD _ (bitWeight_lt p) (bitWeight_lt q), hd]
    by_cases hw : bitWeight q = bitWeight p
    · rw [if_pos hw, if_pos (bitOffset_ext hd hw)]
    · rw [if_neg hw, if_neg (fun hqp => hw (by rw [hqp]))]
  · rw [if_neg hd, if_neg (fun hqp => hd (by rw [hqp]))]

/-! ### Writing a field -/

/-- Writing a field keeps the canonical form. -/
theorem Memory.wf_bitWrite {m : Memory} (h : Memory.wf m = true) (p n v : Nat) :
    Memory.wf (Memory.bitWrite m p n v) = true := by
  induction n generalizing m p with
  | zero => exact h
  | succ n ih => exact ih (Memory.wf_setBit h _ _) _

/-- A field within the first `len` bytes lists nothing at or above `len`. -/
theorem Memory.below_bitWrite {m : Memory} {len p n : Nat} (h : Memory.below m len = true)
    (hp : p + n ≤ 8 * len) (v : Nat) : Memory.below (Memory.bitWrite m p n v) len = true := by
  induction n generalizing m p with
  | zero => exact h
  | succ n ih => exact ih (Memory.below_setBit h (by omega) _) (by omega)

/-- Writing a field sets its bits, most significant first, and no other bit. -/
theorem Memory.bit_bitWrite {m : Memory} (h : Memory.wf m = true) (p n v q : Nat) :
    Memory.bit (Memory.bitWrite m p n v) q =
      if p ≤ q ∧ q < p + n then v.testBit (p + n - 1 - q) else Memory.bit m q := by
  induction n generalizing m p with
  | zero => rw [Memory.bitWrite, if_neg (by omega)]
  | succ n ih =>
    rw [Memory.bitWrite, ih (Memory.wf_setBit h _ _), Memory.bit_setBit h]
    by_cases hq : q = p
    · subst q
      rw [if_neg (by omega), if_pos rfl, if_pos (by omega)]
      congr 1; omega
    · by_cases hin : p + 1 ≤ q ∧ q < p + 1 + n
      · rw [if_pos hin, if_pos (by omega)]
        congr 1; omega
      · rw [if_neg hin, if_neg hq, if_neg (by omega)]

/-! ### Reading a field -/

theorem Memory.bitRead_lt (m : Memory) (p n : Nat) : Memory.bitRead m p n < 2 ^ n := by
  induction n with
  | zero => simp [Memory.bitRead]
  | succ n ih =>
    have : (Memory.bit m (p + n)).toNat ≤ 1 := Bool.toNat_le _
    rw [Memory.bitRead, pow_succ]; omega

/-- Bit `j` of a field's value is the buffer bit `j` before the field's end. -/
theorem Memory.testBit_bitRead (m : Memory) (p n j : Nat) :
    (Memory.bitRead m p n).testBit j = (decide (j < n) && Memory.bit m (p + n - 1 - j)) := by
  induction n generalizing j with
  | zero => simp [Memory.bitRead]
  | succ n ih =>
    have hb : ∀ b : Bool, b.toNat < 2 := fun b => by cases b <;> decide
    cases j with
    | zero =>
      rw [Memory.bitRead, Nat.testBit_zero]
      have : p + (n + 1) - 1 - 0 = p + n := by omega
      rw [this]
      cases Memory.bit m (p + n) <;> simp
    | succ j =>
      rw [Memory.bitRead, Nat.testBit_succ]
      have hdiv : (2 * Memory.bitRead m p n + (Memory.bit m (p + n)).toNat) / 2 = Memory.bitRead m p n := by
        have := hb (Memory.bit m (p + n)); omega
      have hidx : p + (n + 1) - 1 - (j + 1) = p + n - 1 - j := by omega
      rw [hdiv, ih, hidx]
      simp

/-- A field read depends only on its own bits. -/
theorem Memory.bitRead_congr {m m' : Memory} {p n : Nat}
    (h : ∀ q, p ≤ q → q < p + n → Memory.bit m q = Memory.bit m' q) :
    Memory.bitRead m p n = Memory.bitRead m' p n := by
  induction n with
  | zero => rfl
  | succ n ih =>
    rw [Memory.bitRead, Memory.bitRead, ih (fun q h1 h2 => h q h1 (by omega)), h (p + n) (by omega) (by omega)]

/-! ### Bytes and bits -/

/-- Bytes that agree in every bit offset agree. -/
theorem Memory.read_eq_of_bits {m m' : Memory} {a : Nat}
    (h : ∀ j, j < 8 → Memory.bit m (8 * a + j) = Memory.bit m' (8 * a + j)) :
    Memory.read m a = Memory.read m' a := by
  apply BitVec.eq_of_getLsbD_eq
  intro i hi
  have := h (7 - i) (by omega)
  unfold Memory.bit bitWeight at this
  have h1 : (8 * a + (7 - i)) / 8 = a := by omega
  have h2 : 7 - (8 * a + (7 - i)) % 8 = i := by omega
  rwa [h1, h2] at this

/-- Canonical memories with the same bits are equal. -/
theorem Memory.ext_bits {m m' : Memory} (h : Memory.wf m = true) (h' : Memory.wf m' = true)
    (heq : ∀ p, Memory.bit m p = Memory.bit m' p) : m = m' :=
  Memory.ext_of_wf h h' fun _ => Memory.read_eq_of_bits fun _ _ => heq _

theorem State.bitAt_eq (s : State) (p : Nat) :
    s.bitAt p = if p < 8 * s.len.toNat then Memory.bit s.mem p else false := by
  unfold State.bitAt State.byteAt Memory.bit
  by_cases h : p < 8 * s.len.toNat
  · rw [if_pos h, if_pos (by omega)]
  · rw [if_neg h, if_neg (by omega)]; simp

/-- `bitAt` of a state whose memory and length are known. -/
theorem State.bitAt_eq_of {s : State} {m : Memory} {n : Nat} (hm : s.mem = m) (hn : s.len.toNat = n) (p : Nat) :
    s.bitAt p = if p < 8 * n then Memory.bit m p else false := by
  subst hm hn; exact State.bitAt_eq s p

/-- A byte of the buffer is determined by its bits. -/
theorem State.byteAt_eq_of_bitAt {s t : State} {a : Nat} (h : ∀ j, j < 8 → s.bitAt (8 * a + j) = t.bitAt (8 * a + j)) :
    s.byteAt a = t.byteAt a := by
  apply BitVec.eq_of_getLsbD_eq
  intro i hi
  have := h (7 - i) (by omega)
  unfold State.bitAt bitWeight at this
  have h1 : (8 * a + (7 - i)) / 8 = a := by omega
  have h2 : 7 - (8 * a + (7 - i)) % 8 = i := by omega
  rwa [h1, h2] at this

end Sys2Proof.Machine
end

