-- ==== Sys2Proof/Laws/Ops.lean ====
section
/-! SUPPORT. What each shared operation, each command and each event can do, said once. -/

namespace Sys2Proof.Machine

/-! ### Registers and bounds -/

theorem bufCap_lt (s : State) : s.bufCap.val < 2 ^ 61 := s.bufCap.isLt

theorem clamp_mem {t hi : Int} (h : 0 ≤ hi) : 0 ≤ clamp t 0 hi ∧ clamp t 0 hi ≤ hi := by
  unfold clamp; omega

theorem seekTarget_eq (s : State) (delta : Int) :
    (s.seekTarget delta : Int) = clamp (s.bitIndex.toNat + delta) 0 s.endBit :=
  Int.toNat_of_nonneg (clamp_mem (by omega)).1

/-- SEEK never leaves the buffer. -/
theorem seekTarget_le (s : State) (delta : Int) : s.seekTarget delta ≤ s.endBit := by
  have h := (clamp_mem (t := s.bitIndex.toNat + delta) (hi := s.endBit) (by omega)).2
  have := seekTarget_eq s delta
  omega

theorem len_le_newLen (s : State) (ct : Nat) : s.len.toNat ≤ s.newLen ct := le_max_left _ _

/-- The field lies within the grown buffer. -/
theorem field_le_newLen (s : State) (ct : Nat) : s.bitIndex.toNat + ct ≤ 8 * s.newLen ct := by
  have : ceil8 (s.bitIndex.toNat + ct) ≤ s.newLen ct := le_max_right _ _
  unfold ceil8 at this; omega

theorem toNat_ofNat_of_lt {n : Nat} (h : n < 2 ^ 64) : (BitVec.ofNat 64 n).toNat = n := by
  rw [BitVec.toNat_ofNat]; exact Nat.mod_eq_of_lt h

/-! ### The buffer -/

/-- Growth keeps every byte, and the new ones read as zero. -/
theorem grow_byteAt (s : State) {n : Nat} (hn : s.len.toNat ≤ n) (h64 : n < 2 ^ 64) (a : Nat) :
    (s.grow n).byteAt a = s.byteAt a := by
  unfold State.byteAt
  rw [State.grow_len, State.grow_mem, toNat_ofNat_of_lt h64, Memory.read_zeroFrom]
  by_cases h : a < s.len.toNat
  · rw [if_pos h, if_pos h, if_pos (by omega)]
  · rw [if_neg h, if_neg h]; split <;> rfl

/-- Appending adds one byte at the tail and keeps every other. -/
theorem appendByte_byteAt (s : State) (hwf : Memory.wf s.mem = true) (h64 : s.len.toNat + 1 < 2 ^ 64)
    (b : Byte) (a : Nat) :
    (s.appendByte b).byteAt a = if a = s.len.toNat then b else s.byteAt a := by
  unfold State.byteAt
  rw [State.appendByte_len, State.appendByte_mem, toNat_ofNat_of_lt h64,
    Memory.read_write (Memory.wf_zeroFrom hwf _), Memory.read_zeroFrom]
  by_cases h : a = s.len.toNat
  · rw [if_pos h, if_pos (by omega), if_pos h]
  · rw [if_neg h, if_neg h]
    by_cases h' : a < s.len.toNat
    · rw [if_pos h', if_pos h', if_pos (by omega)]
    · rw [if_neg h', if_neg h', if_neg (by omega)]

/-! ### The commands -/

theorem exec_read_of_overreads {s : State} {ct : Nat} (h : s.Overreads ct) :
    exec (.read ct) s = .next (s.raise .overread) := by simp only [exec, execRead, if_pos h]

theorem exec_read_of_not_overreads {s : State} {ct : Nat} (h : ¬ s.Overreads ct) :
    exec (.read ct) s = .next ((s.setBitIndex (s.bitIndex.toNat + ct)).respond .ok
      (BitVec.ofNat 64 (Memory.bitRead s.mem s.bitIndex.toNat ct))) := by
  simp only [exec, execRead, if_neg h]

theorem exec_write_of_exceeds {s : State} {ct : Nat} (v : BitVec 32) (h : s.ExceedsCap (s.newLen ct)) :
    exec (.write ct v) s = .next (s.raise .capacity) := by simp only [exec, execWrite, if_pos h]

theorem exec_write_of_fits {s : State} {ct : Nat} (v : BitVec 32) (h : ¬ s.ExceedsCap (s.newLen ct)) :
    exec (.write ct v) s = .next ((((s.grow (s.newLen ct)).putField ct (fieldValue ct v)).setBitIndex
      (s.bitIndex.toNat + ct)).respond .ok 0) := by simp only [exec, execWrite, if_neg h]

theorem exec_append_of_exceeds {s : State} (b : Byte) (h : s.ExceedsCap (s.len.toNat + 1)) :
    exec (.append b) s = .next (s.raise .capacity) := by simp only [exec, execAppend, if_pos h]

theorem exec_append_of_fits {s : State} (b : Byte) (h : ¬ s.ExceedsCap (s.len.toNat + 1)) :
    exec (.append b) s = .next ((s.appendByte b).respond .ok 0) := by simp only [exec, execAppend, if_neg h]

/-- Everything a command can do. -/
theorem exec_cases {i : Instr} {s t : State} (h : exec i s = .next t) :
    (∃ ct, i = .read ct ∧ s.Overreads ct ∧ t = s.raise .overread) ∨
    (∃ ct, i = .read ct ∧ ¬ s.Overreads ct ∧
      t = (s.setBitIndex (s.bitIndex.toNat + ct)).respond .ok
        (BitVec.ofNat 64 (Memory.bitRead s.mem s.bitIndex.toNat ct))) ∨
    (∃ ct v, i = .write ct v ∧ s.ExceedsCap (s.newLen ct) ∧ t = s.raise .capacity) ∨
    (∃ ct v, i = .write ct v ∧ ¬ s.ExceedsCap (s.newLen ct) ∧
      t = (((s.grow (s.newLen ct)).putField ct (fieldValue ct v)).setBitIndex
        (s.bitIndex.toNat + ct)).respond .ok 0) ∨
    (∃ d, i = .seek d ∧ t = (s.setBitIndex (s.seekTarget d)).respond .ok 0) ∨
    (i = .index ∧ t = s.respond .ok s.bitIndex) ∨
    (i = .clear ∧ t = s.emptyBuffer.respond .ok 0) ∨
    (∃ b, i = .append b ∧ s.ExceedsCap (s.len.toNat + 1) ∧ t = s.raise .capacity) ∨
    (∃ b, i = .append b ∧ ¬ s.ExceedsCap (s.len.toNat + 1) ∧ t = (s.appendByte b).respond .ok 0) := by
  cases i with
  | read ct =>
    by_cases hc : s.Overreads ct
    · simp only [exec, execRead, if_pos hc, Host.Outcome.next.injEq] at h
      exact .inl ⟨ct, rfl, hc, h.symm⟩
    · simp only [exec, execRead, if_neg hc, Host.Outcome.next.injEq] at h
      exact .inr (.inl ⟨ct, rfl, hc, h.symm⟩)
  | write ct v =>
    by_cases hc : s.ExceedsCap (s.newLen ct)
    · simp only [exec, execWrite, if_pos hc, Host.Outcome.next.injEq] at h
      exact .inr (.inr (.inl ⟨ct, v, rfl, hc, h.symm⟩))
    · simp only [exec, execWrite, if_neg hc, Host.Outcome.next.injEq] at h
      exact .inr (.inr (.inr (.inl ⟨ct, v, rfl, hc, h.symm⟩)))
  | seek d =>
    simp only [exec, execSeek, Host.Outcome.next.injEq] at h
    exact .inr (.inr (.inr (.inr (.inl ⟨d, rfl, h.symm⟩))))
  | index =>
    simp only [exec, execIndex, Host.Outcome.next.injEq] at h
    exact .inr (.inr (.inr (.inr (.inr (.inl ⟨rfl, h.symm⟩)))))
  | clear =>
    simp only [exec, execClear, Host.Outcome.next.injEq] at h
    exact .inr (.inr (.inr (.inr (.inr (.inr (.inl ⟨rfl, h.symm⟩))))))
  | append b =>
    by_cases hc : s.ExceedsCap (s.len.toNat + 1)
    · simp only [exec, execAppend, if_pos hc, Host.Outcome.next.injEq] at h
      exact .inr (.inr (.inr (.inr (.inr (.inr (.inr (.inl ⟨b, rfl, hc, h.symm⟩)))))))
    · simp only [exec, execAppend, if_neg hc, Host.Outcome.next.injEq] at h
      exact .inr (.inr (.inr (.inr (.inr (.inr (.inr (.inr ⟨b, rfl, hc, h.symm⟩)))))))

/-- Everything an accepted word can do. -/
theorem execute_cases {c : Word} {s t : State} (h : execute c s = .next t) :
    (∃ e, decode c = .error e ∧ t = s.raise .illegal) ∨ (∃ i, decode c = .ok i ∧ exec i s = .next t) := by
  unfold execute at h
  cases hd : decode c with
  | error e => rw [hd] at h; exact .inl ⟨e, rfl, by simpa using h.symm⟩
  | ok i => rw [hd] at h; exact .inr ⟨i, rfl, h⟩

/-- Everything a step can do. -/
theorem step_cases {s t : State} (h : step s = .next t) :
    (s.phase = .idle ∧ s.cmds = [] ∧ t = s.freeRsp) ∨
    (∃ c cs, s.phase = .idle ∧ s.cmds = c :: cs ∧ execute c (s.accept c 1) = .next t) ∨
    (∃ c n, s.phase = .busy c n ∧ execute c s = .next t) ∨
    (s.phase = .resp ∧ t = s.hostTake) := by
  unfold step hostEvent at h
  cases hp : s.phase with
  | idle =>
    rw [hp] at h
    cases hc : s.cmds with
    | nil => rw [hc] at h; exact .inl ⟨rfl, rfl, by simpa using h.symm⟩
    | cons c cs => rw [hc] at h; exact .inr (.inl ⟨c, cs, rfl, rfl, h⟩)
  | busy c n => rw [hp] at h; exact .inr (.inr (.inl ⟨c, n, rfl, h⟩))
  | resp => rw [hp] at h; exact .inr (.inr (.inr ⟨rfl, by simpa using h.symm⟩))

/-- Everything a clock edge can do. -/
theorem edge_cases {lat : Nat} {p : PortIn} {s t : State} (h : edge lat p s = .next t) :
    (p.rst = true ∧ t = s.resetEdge) ∨
    (p.rst = false ∧ s.phase = .idle ∧ p.cmdValid = true ∧ t = s.accept p.cmdData lat) ∨
    (p.rst = false ∧ s.phase = .idle ∧ p.cmdValid = false ∧ t = s.freeRsp) ∨
    (∃ c, p.rst = false ∧ s.phase = .busy c 0 ∧ execute c s = .next t) ∨
    (∃ c n, p.rst = false ∧ s.phase = .busy c (n + 1) ∧
      t = { s.freeRsp with phase := Phase.busy c n }) ∨
    (p.rst = false ∧ s.phase = .resp ∧ p.rspReady = true ∧ t = s.takeRsp) ∨
    (p.rst = false ∧ s.phase = .resp ∧ p.rspReady = false ∧ t = s) := by
  unfold edge at h
  cases hr : p.rst with
  | true => rw [hr] at h; exact .inl ⟨rfl, by simpa using h.symm⟩
  | false =>
    rw [hr] at h
    cases hp : s.phase with
    | idle =>
      rw [hp] at h
      cases hv : p.cmdValid with
      | true => rw [hv] at h; exact .inr (.inl ⟨rfl, rfl, rfl, by simpa using h.symm⟩)
      | false => rw [hv] at h; exact .inr (.inr (.inl ⟨rfl, rfl, rfl, by simpa using h.symm⟩))
    | busy c n =>
      rw [hp] at h
      cases n with
      | zero => exact .inr (.inr (.inr (.inl ⟨c, rfl, rfl, by simpa using h⟩)))
      | succ n => exact .inr (.inr (.inr (.inr (.inl ⟨c, n, rfl, rfl, by simpa using h.symm⟩))))
    | resp =>
      rw [hp] at h
      cases hv : p.rspReady with
      | true => rw [hv] at h; exact .inr (.inr (.inr (.inr (.inr (.inl ⟨rfl, rfl, rfl, by simpa using h.symm⟩)))))
      | false => rw [hv] at h; exact .inr (.inr (.inr (.inr (.inr (.inr ⟨rfl, rfl, rfl, by simpa using h.symm⟩)))))

end Sys2Proof.Machine
end

