-- ==== Sys2Proof/Laws/PerInstr.lean ====
section
/-! SUPPORT. Per command: the fields of its word (30_encoding.md R44, R49 to R53). -/

namespace Sys2Proof.Laws.EncodedFields

/-- The word of a command carries its `OP`, its `WM1` and its `IMM32`, and `RSV` zero. -/
def Statement (i : Instr) : Prop :=
  opField (encode i) = i.op ∧ rsvField (encode i) = 0 ∧ wm1Field (encode i) = i.wm1 ∧
    immField (encode i) = i.imm

theorem read (ct : Nat) : Statement (.read ct) := by simp [Statement, encode]

theorem write (ct : Nat) (value : BitVec 32) : Statement (.write ct value) := by simp [Statement, encode]

theorem seek (delta : Int) : Statement (.seek delta) := by simp [Statement, encode]

theorem index : Statement .index := by simp [Statement, encode]

theorem clear : Statement .clear := by simp [Statement, encode]

theorem append (byte : Byte) : Statement (.append byte) := by simp [Statement, encode]

end Sys2Proof.Laws.EncodedFields
end

