-- ==== Sys2Proof/Laws/Run.lean ====
section
/-! SUPPORT. Runs of the machine, step by step and command by command. -/

namespace Sys2Proof.Machine

theorem core_run_zero (s : State) : Sys2Proof.core.run 0 s = .next s := rfl

/-- A run whose first step is known. -/
theorem core_run_succ {s t : State} (h : step s = .next t) (k : Nat) :
    Sys2Proof.core.run (k + 1) s = Sys2Proof.core.run k t := by
  have h' : Sys2Proof.core.step s = .next t := h
  simp only [Host.Core.run, h']

/-- The two steps of one command: the host presents it to an idle block and takes the response. -/
theorem core_run_command {s u : State} {c : Word} {rest : List Word} {i : Instr} (hp : s.phase = .idle)
    (hc : s.cmds = c :: rest) (hd : decode c = .ok i) (hx : exec i (s.accept c 1) = .next u)
    (hu : u.phase = .resp) (k : Nat) :
    Sys2Proof.core.run (k + 2) s = Sys2Proof.core.run k u.hostTake := by
  have h1 : step s = .next u := by simp [step, hostEvent, hp, hc, execute, hd, hx]
  have h2 : step u = .next u.hostTake := by simp [step, hostEvent, hu]
  rw [core_run_succ h1, core_run_succ h2]

end Sys2Proof.Machine
end

