-- ==== Sys2Proof/Tests/Slice0.lean ====
section
/-! SUPPORT. The model's own tests: words and vectors of the spec (30_encoding.md, 95_test_vectors.md), the refusals of
WellFormed, and a witness for the hypotheses of every statement that has some. Expected results are the spec's own. -/

namespace Sys2Proof.Tests

open Sys2Proof.Machine

/-- A small idle state: buffer cells, `LEN`, `BIT_INDEX`, `BUF_CAP`. -/
def st (mem : Memory) (len k cap : Nat) : State where
  mem := mem
  len := BitVec.ofNat 64 len
  bitIndex := BitVec.ofNat 64 k
  phase := .idle
  rspStatus := 0
  rspData := 0
  bufCap := Fin.ofNat _ cap
  freeCount := 0
  cmds := []
  taken := []

/-- What an outcome shows: status, data, the buffer and the bit index. -/
def shown : Host.Outcome State Fault Refusal → Option (Nat × Nat × List Nat × Nat)
  | .next t => some (t.rspStatus.toNat, t.rspData.toNat, t.bytes.map BitVec.toNat, t.bitIndex.toNat)
  | .fault _ => none
  | .refused _ => none

/-- The words of an assembly text; none for an assembly error. -/
def asm (text : List Char) : Option (List Word) := (assemble text).toOption

/-! ### WellFormed refuses ill-formed terms (30_encoding.md R47, R61) -/

theorem test_wf_read_refuses_width_0 : (Instr.read 0).wf = false := by decide
theorem test_wf_read_refuses_width_33 : (Instr.read 33).wf = false := by decide
theorem test_wf_write_refuses_width_0 : (Instr.write 0 1).wf = false := by decide
theorem test_wf_write_refuses_width_33 : (Instr.write 33 1).wf = false := by decide
theorem test_wf_seek_refuses_low_delta : (Instr.seek (-2147483649)).wf = false := by decide
theorem test_wf_seek_refuses_high_delta : (Instr.seek 2147483648).wf = false := by decide
theorem test_wf_accepts_the_limits :
    ((Instr.read 1).wf && (Instr.read 32).wf && (Instr.write 1 0).wf && (Instr.write 32 0).wf &&
      (Instr.seek (-2147483648)).wf && (Instr.seek 2147483647).wf && Instr.index.wf && Instr.clear.wf &&
      (Instr.append 0xFF).wf) = true := by decide

/-! ### Decoding: words written out from 30_encoding.md R49 to R53, field by field: OP, RSV, WM1, IMM32 -/

theorem test_decode_read :
    decode (0b0001#4 ++ 0b00000000000000000000000#23 ++ 0b00011#5 ++ 0b00000000000000000000000000000000#32) =
      .ok (.read 4) := by decide
theorem test_decode_write :
    decode (0b0010#4 ++ 0b00000000000000000000000#23 ++ 0b01111#5 ++ 0b00000000000000001010010101011010#32) =
      .ok (.write 16 0xA55A) := by decide
theorem test_decode_seek :
    decode (0b0011#4 ++ 0b00000000000000000000000#23 ++ 0b00000#5 ++ 0b10000000000000000000000000000000#32) =
      .ok (.seek (-2147483648)) := by decide
theorem test_decode_index :
    decode (0b0100#4 ++ 0b00000000000000000000000#23 ++ 0b00000#5 ++ 0b00000000000000000000000000000000#32) =
      .ok .index := by decide
theorem test_decode_clear :
    decode (0b0101#4 ++ 0b00000000000000000000000#23 ++ 0b00000#5 ++ 0b00000000000000000000000000000000#32) =
      .ok .clear := by decide
theorem test_decode_append :
    decode (0b0110#4 ++ 0b00000000000000000000000#23 ++ 0b00000#5 ++ 0b00000000000000000000000011001101#32) =
      .ok (.append 0xCD) := by decide

/-- 95_test_vectors.md V-READ, V-WRITE and V-SEEK words, and `WRITE 4, 0xFFFFFF0F`, whose high value bits are ignored. -/
theorem test_decode_vector_words :
    decode 0x1000001F00000000 = .ok (.read 32) ∧ decode 0x2000001FFFFFFFFF = .ok (.write 32 0xFFFFFFFF) ∧
      decode 0x30000000FFFFFFEC = .ok (.seek (-20)) ∧ decode 0x20000003FFFFFF0F = .ok (.write 4 0xFFFFFF0F) := by
  decide

/-- 95_test_vectors.md VX1 to VX10. -/
theorem test_decode_illegal_words :
    ([0x0000000000000000, 0x7000000000000000, 0xF000000000000000, 0x1000000000000001, 0x1000002000000000,
      0x1800000000000000, 0x3000000100000000, 0x4000000000000001, 0x5000000100000000, 0x6000000000000100].map
        fun c : Word => (decode c).toOption) = List.replicate 10 none := by decide

theorem test_encode_vector_words :
    encode (.read 20) = 0x1000001300000000 ∧ encode (.write 20 0xABCDE) = 0x20000013000ABCDE ∧
      encode (.seek (-24)) = 0x30000000FFFFFFE8 ∧ encode .index = 0x4000000000000000 ∧
      encode .clear = 0x5000000000000000 ∧ encode (.append 0x5A) = 0x600000000000005A := by decide

theorem test_decodeTableWord :
    decodeTableWord 64 0x20000007000000AB = some (.write 8 0xAB) ∧ decodeTableWord 64 0 = none ∧
      decodeTableWord 65 0x4000000000000000 = none := by decide

/-! ### READ (95_test_vectors.md VR3, VR6) -/

theorem test_read_32_bits_over_5_bytes :
    shown (exec (.read 32) (st [(0, 0x12), (1, 0x34), (2, 0x56), (3, 0x78), (4, 0x9A)] 5 7 5)) =
      some (0, 0x1A2B3C4D, [0x12, 0x34, 0x56, 0x78, 0x9A], 39) := by decide
theorem test_read_one_bit_too_many :
    shown (exec (.read 5) (st [(0, 0xAB), (1, 0xCD)] 2 12 2)) = some (1, 0, [0xAB, 0xCD], 12) := by decide

/-! ### WRITE (95_test_vectors.md VW4, VW8) -/

theorem test_write_grows_4_bytes :
    shown (exec (.write 32 0xFFFFFFFF) (st [] 1 7 9)) = some (0, 0, [0x01, 0xFF, 0xFF, 0xFF, 0xFE], 39) := by decide
theorem test_write_past_capacity :
    shown (exec (.write 1 1) (st [] 1 8 1)) = some (3, 0, [0x00], 8) := by decide

/-! ### SEEK (95_test_vectors.md VS2, VS5) -/

theorem test_seek_back_clamps_at_0 :
    shown (exec (.seek (-20)) (st [] 2 16 2)) = some (0, 0, [0, 0], 0) := by decide
theorem test_seek_forward_clamps_at_end :
    shown (exec (.seek 2147483647) (st [] 4 0 4)) = some (0, 0, [0, 0, 0, 0], 32) := by decide

/-! ### INDEX, CLEAR, APPEND (95_test_vectors.md VI2, VC1, VA1, VA2) -/

theorem test_index : shown (exec .index (st [] 4 29 4)) = some (0, 0x1D, [0, 0, 0, 0], 29) := by decide
theorem test_clear :
    shown (exec .clear (st [(0, 1), (1, 2), (2, 3)] 3 17 3)) = some (0, 0, [], 0) := by decide
theorem test_append :
    shown (exec (.append 0xCD) (st [(0, 0xAB)] 1 8 9)) = some (0, 0, [0xAB, 0xCD], 8) := by decide
theorem test_append_when_full :
    shown (exec (.append 1) (st [(0, 0xAB), (1, 0xCD)] 2 0 2)) = some (3, 0, [0xAB, 0xCD], 0) := by decide

/-! ### Datapaths (95_test_vectors.md VR3, VW10: the byte-level branch checks) -/

theorem test_readDatapath_straddles :
    readDatapath [(0, 0x12), (1, 0x34), (2, 0x56), (3, 0x78), (4, 0x9A)] 7 32 = 0x1A2B3C4D := by decide
theorem test_writeDatapath_straddles :
    writeDatapath [] 3 16 0xFFFF = [(0, 0x1F), (1, 0xFF), (2, 0xE0)] := by decide
theorem test_writeDatapath_left_shift : writeDatapath [(0, 0xFF)] 1 6 0 = [(0, 0x81)] := by decide

/-! ### The step, illegal words and the ports -/

/-- From reset with a word placed, the very next step answers it, whatever it is. -/
theorem test_reset_runs_the_placed_word :
    (step (State.reset.withFetchWord 64 0x600000000000005A) matches .next _) ∧
      (step (State.reset.withFetchWord 64 0x0000000000000000) matches .next _) := by decide
theorem test_reset_append_is_answered :
    shown (step (State.reset.withFetchWord 64 0x600000000000005A)) = some (0, 0, [0x5A], 0) := by decide
/-- 95_test_vectors.md VX4, on a state with a buffer. -/
theorem test_illegal_word :
    shown (step ((st [(0, 0xAA)] 1 5 2).withFetchWord 64 0x1000000000000001)) = some (2, 0, [0xAA], 5) := by decide
/-- 43_bit_cursor_engine.md R96: readback at `LEN` is 0x00, and no value while BUSY. -/
theorem test_readback :
    (outputs ⟨false, false, 0, false, 0⟩ (st [(0, 0xAB)] 1 0 1)).rbData = some 0xAB ∧
      (outputs ⟨false, false, 0, false, 1⟩ (st [(0, 0xAB)] 1 0 1)).rbData = some 0 ∧
      (outputs ⟨false, false, 0, false, 0⟩ ((st [(0, 0xAB)] 1 0 1).accept 0 1)).rbData = none := by decide

/-! ### Assembly (30_encoding.md R61, R62; the words are those of 95_test_vectors.md P2 and VW1) -/

theorem test_assemble_write :
    asm ['W', 'R', 'I', 'T', 'E', ' ', '3', ',', ' ', '0', 'x', '5', ' ', ';', 'v'] = some [0x2000000200000005] := by
  decide
theorem test_assemble_attach :
    asm ['A', 'T', 'T', 'A', 'C', 'H', ' ', '0', 'x', '1', '2', ',', '0', 'b', '1', '1'] =
      some [0x5000000000000000, 0x6000000000000012, 0x6000000000000003] := by decide
theorem test_assemble_seek_negative :
    asm ['S', 'E', 'E', 'K', ' ', '-', '2', '0'] = some [0x30000000FFFFFFEC] := by decide
theorem test_assemble_refuses_width_33 : asm ['R', 'E', 'A', 'D', ' ', '3', '3'] = none := by decide
theorem test_assemble_refuses_byte_256 : (AsmLine.append 256).words.toOption = none := by decide
theorem test_assemble_limits :
    (AsmLine.read 32).words.toOption = some [0x1000001F00000000] ∧ (AsmLine.read 0).words.toOption = none ∧
      (AsmLine.write 4 0xFF).words.toOption = some [0x20000003000000FF] ∧
      (AsmLine.write 4 4294967296).words.toOption = none ∧
      (AsmLine.seek (-2147483648)).words.toOption = some [0x3000000080000000] ∧
      (AsmLine.seek 2147483648).words.toOption = none := by decide
/-- A delta of one past one chunk takes two SEEKs of its sign. -/
theorem test_seekl_two_chunks : seekl (-2147483648) = [.seek (-2147483647), .seek (-1)] := by decide
theorem test_seekl_zero : seekl 0 = [.seek 0] := by decide

/-! ### Witnesses: concrete states and operands that meet the hypotheses of the statements, clause by clause -/

/-- A two-byte buffer with room for one byte more. -/
def w2 (k : Nat) : State := st [(0, 0xAB), (1, 0xCD)] 2 k 3

/-- `w2` with a command list. -/
def w2cmds (k : Nat) (cs : List Word) : State := { w2 k with cmds := cs }

theorem witness_wf : (Instr.read 32).wf = true ∧ (Instr.write 1 0).wf = true ∧ (Instr.seek (-20)).wf = true := by decide
theorem witness_decodes : decode 0x1000000300000000 = .ok (.read 4) := by decide
theorem witness_illegal : decode 0x6000000000000100 = .error .operandBits := by decide
theorem witness_inv_idle : (w2 12).Inv := by decide
theorem witness_inv_at_end : (w2 16).Inv := by decide
theorem witness_inv_resp : ({ w2 3 with phase := .resp, rspStatus := 1 } : State).Inv := by decide
theorem witness_inv_busy : ({ w2 3 with phase := .busy 0x4000000000000000 2 } : State).Inv := by decide

/-- StepRunsTheDecodedCommand, IllegalWordIsAnsweredIllegal: an idle block with a command listed. -/
theorem witness_idle_with_command :
    (w2cmds 0 [0x1000000300000000]).phase = .idle ∧ (w2cmds 0 [0x1000000300000000]).cmds = [0x1000000300000000] ∧
      decode 0x1000000300000000 = .ok (.read 4) := by decide
theorem witness_idle_with_illegal_word :
    (w2cmds 0 [0x7000000000000000]).phase = .idle ∧ (w2cmds 0 [0x7000000000000000]).cmds = [0x7000000000000000] ∧
      decode 0x7000000000000000 = .error .reservedOp := by decide
theorem witness_busy_with_command :
    ({ w2 0 with phase := .busy 0x4000000000000000 0 } : State).phase = .busy 0x4000000000000000 0 ∧
      decode 0x4000000000000000 = .ok .index := by decide
/-- StepTakesTheResponseOrWaits. -/
theorem witness_resp_and_waiting :
    ({ w2 0 with phase := .resp } : State).phase = .resp ∧ (w2 0).phase = .idle ∧ (w2 0).cmds = [] := by decide

/-- ReadReturnsTheFieldOrOverreads, at its two clauses' meeting point: exact fit, and one bit too many. -/
theorem witness_read_exact_fit :
    (Instr.read 4).wf = true ∧ (w2 12).Inv ∧ (w2 12).bitIndex.toNat + 4 ≤ 8 * (w2 12).len.toNat := by decide
theorem witness_read_one_too_many :
    (Instr.read 5).wf = true ∧ (w2 12).Inv ∧ 8 * (w2 12).len.toNat < (w2 12).bitIndex.toNat + 5 := by decide
/-- SeekBackUndoesARead, OverreadExactlyWhenTooFewBitsRemain and every statement over `exec (.read ct) s = .next t`. -/
theorem witness_read_next : ∃ t, exec (.read 4) (w2 12) = .next t ∧ t.rspStatus = 0 :=
  ⟨_, rfl, by decide⟩
theorem witness_overread_next : ∃ t, exec (.read 5) (w2 12) = .next t ∧ t.rspStatus = 1 :=
  ⟨_, rfl, by decide⟩
theorem witness_readDatapath : 1 ≤ 32 ∧ (32 : Nat) ≤ 32 ∧ (7 + 32 - 1) / 8 - 7 / 8 + 1 = 5 := by decide

/-- WriteGrowsAndPutsTheField, at its two clauses' meeting point: growth to the capacity, and one bit past it. -/
theorem witness_write_to_capacity :
    (Instr.write 8 0xFF).wf = true ∧ (w2 16).Inv ∧
      max (w2 16).len.toNat (((w2 16).bitIndex.toNat + 8 + 7) / 8) ≤ (w2 16).bufCap.val := by decide
theorem witness_write_past_capacity :
    (Instr.write 9 0x1FF).wf = true ∧ (w2 16).Inv ∧
      (w2 16).bufCap.val < max (w2 16).len.toNat (((w2 16).bitIndex.toNat + 9 + 7) / 8) := by decide
/-- WriteGrowthIsMinimal, ReadBackGivesTheMaskedValue, WriteAndAppendStoreOnlyWhereTheySay: a WRITE that succeeds, and a bit
past its field in a new byte. -/
theorem witness_write_next : ∃ t, exec (.write 4 0xFF) (w2 16) = .next t ∧ t.rspStatus = 0 ∧
    8 * (w2 16).len.toNat ≤ 20 ∧ (w2 16).bitIndex.toNat + 4 ≤ 20 :=
  ⟨_, rfl, by decide⟩
theorem witness_readback_cursor : ∃ t u : State, exec (.write 4 0xFF) (w2 16) = .next t ∧ t.rspStatus = 0 ∧
    u.mem = t.mem ∧ u.len = t.len ∧ u.bitIndex = (w2 16).bitIndex :=
  ⟨_, { w2 16 with mem := [(0, 0xAB), (1, 0xCD), (2, 0xF0)], len := 3 }, rfl, by decide⟩
theorem witness_capacity_next : ∃ t, exec (.write 9 0x1FF) (w2 16) = .next t ∧ t.rspStatus = 3 :=
  ⟨_, rfl, by decide⟩
theorem witness_bytes_outside_the_field :
    0 < (w2 12).bitIndex.toNat / 8 ∧ ((w2 12).bitIndex.toNat + 4 - 1) / 8 < 2 := by decide
theorem witness_writeDatapath : Memory.wf [(0, 0x12)] = true ∧ 1 ≤ 32 ∧ 0xFFFFFFFF < 2 ^ 32 := by decide

/-- SeekClampsTheExactSum, SeekNeverWrapsNorLeavesTheBuffer, with a delta larger in magnitude than the index. -/
theorem witness_seek :
    (Instr.seek (-20)).wf = true ∧ (w2 12).Inv ∧ ((w2 12).bitIndex.toNat : Int) < 20 := by decide
theorem witness_seek_next : ∃ t, exec (.seek (-20)) (w2 12) = .next t := ⟨_, rfl⟩
theorem witness_clear_next : ∃ t, exec .clear (w2 12) = .next t := ⟨_, rfl⟩
theorem witness_index_next : ∃ t, exec .index (w2 12) = .next t := ⟨_, rfl⟩

/-- AppendAddsOneByteAtTheTail, at its two clauses' meeting point: the last free byte, and a full buffer. -/
theorem witness_append_last_byte : (w2 12).Inv ∧ (w2 12).len.toNat + 1 ≤ (w2 12).bufCap.val := by decide
theorem witness_append_full :
    (st [(0, 0xAB), (1, 0xCD)] 2 12 2).Inv ∧
      (st [(0, 0xAB), (1, 0xCD)] 2 12 2).bufCap.val < (st [(0, 0xAB), (1, 0xCD)] 2 12 2).len.toNat + 1 := by decide
theorem witness_append_next : ∃ t, exec (.append 0x5A) (w2 12) = .next t ∧ (∃ a, t.byteAt a ≠ (w2 12).byteAt a) :=
  ⟨_, rfl, 2, by decide⟩

/-- CommandsReadOnlyTheirReadSets: two states that agree on a read set and differ elsewhere. -/
theorem witness_read_sets :
    (w2 12).len = (st [] 2 12 3).len ∧ (w2 12).bitIndex = (st [] 2 12 3).bitIndex ∧
      (w2 12).bufCap = (st [] 2 12 3).bufCap ∧ (w2 12).mem ≠ (st [] 2 12 3).mem := by decide
/-- ResultsIgnoreTheInterfaceState: two states that differ in the interface state alone. -/
theorem witness_interface_differs :
    (w2 12).SameArch { w2 12 with phase := .resp, rspData := 7 } ∧
      (w2 12).bufCap = ({ w2 12 with phase := .resp, rspData := 7 } : State).bufCap := by decide
/-- ErrorsChangeOnlyTheResponse, ResponseDataIsAValueOrZero and every statement over `execute c s = .next t`. -/
theorem witness_execute_error : ∃ t, execute 0x1000000400000000 (w2 12) = .next t ∧ t.rspStatus ≠ 0 :=
  ⟨_, rfl, by decide⟩
theorem witness_execute_ok : ∃ t, execute 0x1000000300000000 (w2 12) = .next t ∧ t.rspStatus = 0 :=
  ⟨_, rfl, by decide⟩
theorem witness_execute_index : decode 0x4000000000000000 = .ok .index := by decide

/-- EveryStepKeepsTheInvariant, EveryEdgeKeepsTheInvariant, EveryRunFromALegalStateIsSafe. -/
theorem witness_step : (w2cmds 0 [0x1000000300000000]).Inv ∧
    ∃ t, step (w2cmds 0 [0x1000000300000000]) = .next t := ⟨by decide, _, rfl⟩
theorem witness_edge : (w2 12).Inv ∧ ∃ t, edge 3 ⟨false, true, 0x4000000000000000, false, 0⟩ (w2 12) = .next t :=
  ⟨by decide, _, rfl⟩

/-- ResetEdgeWinsAndAborts, HandshakeMovesOnlyThePhase, the ports: inputs and phases that meet each clause. -/
theorem witness_reset_edge : (⟨true, true, 0, true, 0⟩ : PortIn).rst = true := by decide
theorem witness_handshake :
    (⟨false, true, 0, false, 0⟩ : PortIn).rst = false ∧ (⟨false, true, 0, false, 0⟩ : PortIn).cmdValid = true ∧
      (⟨false, false, 0, true, 0⟩ : PortIn).cmdValid = false ∧ (⟨false, false, 0, true, 0⟩ : PortIn).rspReady = true ∧
      (w2 0).phase = .idle ∧ ({ w2 0 with phase := .resp } : State).phase = .resp := by decide

/-- ClockedBlockRefinesTheStep: latency 1 with its completing edge, and latency 2 with none yet. -/
theorem witness_clocked :
    (w2cmds 0 [0x1000000300000000]).phase = .idle ∧
      (w2cmds 0 [0x1000000300000000]).cmds = 0x1000000300000000 :: [] ∧
      (⟨false, true, 0x1000000300000000, false, 0⟩ : PortIn).rst = false ∧
      (⟨false, true, 0x1000000300000000, false, 0⟩ : PortIn).cmdValid = true ∧
      ([(1, ⟨false, false, 0, false, 0⟩)] : List (Nat × PortIn)).length = 1 ∧
      (∀ q ∈ ([(1, ⟨false, false, 0, false, 0⟩)] : List (Nat × PortIn)), q.2.rst = false) ∧
      ([] : List (Nat × PortIn)).length < 2 := by decide

/-- AttachLoadsTheInitialBuffer: as many bytes as the capacity. -/
theorem witness_attach :
    (w2cmds 5 ((attach [0x12, 0x34, 0x56]).map encode ++ [0x4000000000000000])).Inv ∧
      (w2cmds 5 ((attach [0x12, 0x34, 0x56]).map encode ++ [0x4000000000000000])).phase = .idle ∧
      [0x12, 0x34, 0x56].length ≤ (w2 5).bufCap.val := by decide
/-- SeeklIsOneUnboundedSeek: a delta that takes two SEEKs. -/
theorem witness_seekl :
    (w2cmds 5 ((seekl 2147483648).map encode ++ [])).Inv ∧
      (w2cmds 5 ((seekl 2147483648).map encode ++ [])).phase = .idle := by decide
/-- ReadingFieldsInOrderReproducesTheBits: widths that fill the buffer. -/
theorem witness_round_trip :
    (w2cmds 0 ([4, 11, 1].map fun w => encode (.read w))).Inv ∧
      (w2cmds 0 ([4, 11, 1].map fun w => encode (.read w))).phase = .idle ∧
      (w2cmds 0 ([4, 11, 1].map fun w => encode (.read w))).bitIndex = 0 ∧
      (∀ w ∈ [4, 11, 1], 1 ≤ w ∧ w ≤ 32) ∧ [4, 11, 1].sum ≤ 8 * (w2 0).len.toNat := by decide

end Sys2Proof.Tests
end

section
/-! SUPPORT. The family of 10_state.md: what a legal state is kept by, that nothing stops, and what each command reads
and writes. -/

namespace Sys2Proof.Machine

/-! ### One equation per command and per event -/

theorem exec_seek (d : Int) (s : State) :
    exec (.seek d) s = .next ((s.setBitIndex (s.seekTarget d)).respond .ok 0) := rfl

theorem exec_index (s : State) : exec .index s = .next (s.respond .ok s.bitIndex) := rfl

theorem exec_clear (s : State) : exec .clear s = .next (s.emptyBuffer.respond .ok 0) := rfl

theorem execute_of_illegal {c : Word} {e : Illegal} (h : decode c = .error e) (s : State) :
    execute c s = .next (s.raise .illegal) := by simp only [execute, h]

theorem execute_of_decodes {c : Word} {i : Instr} (h : decode c = .ok i) (s : State) :
    execute c s = exec i s := by simp only [execute, h]

theorem step_of_waiting {s : State} (hp : s.phase = .idle) (hc : s.cmds = []) :
    step s = .next s.freeRsp := by simp only [step, hostEvent, hp, hc]

theorem step_of_presenting {s : State} {c : Word} {cs : List Word} (hp : s.phase = .idle)
    (hc : s.cmds = c :: cs) : step s = execute c (s.accept c 1) := by simp only [step, hostEvent, hp, hc]

theorem step_of_busy {s : State} {c : Word} {n : Nat} (hp : s.phase = .busy c n) :
    step s = execute c s := by simp only [step, hostEvent, hp]

theorem step_of_resp {s : State} (hp : s.phase = .resp) : step s = .next s.hostTake := by
  simp only [step, hostEvent, hp]

/-! ### Nothing stops -/

theorem exec_total (i : Instr) (s : State) : ∃ t, exec i s = .next t := by
  cases i with
  | read ct => exact ⟨_, rfl⟩
  | write ct v => exact ⟨_, rfl⟩
  | seek d => exact ⟨_, rfl⟩
  | index => exact ⟨_, rfl⟩
  | clear => exact ⟨_, rfl⟩
  | append b => exact ⟨_, rfl⟩

theorem execute_total (c : Word) (s : State) : ∃ t, execute c s = .next t := by
  cases hd : decode c with
  | error e => exact ⟨_, execute_of_illegal hd s⟩
  | ok i => rw [execute_of_decodes hd]; exact exec_total i s

theorem step_total (s : State) : ∃ t, step s = .next t := by
  cases hp : s.phase with
  | idle =>
    cases hc : s.cmds with
    | nil => exact ⟨_, step_of_waiting hp hc⟩
    | cons c cs => rw [step_of_presenting hp hc]; exact execute_total _ _
  | busy c n => rw [step_of_busy hp]; exact execute_total c s
  | resp => exact ⟨_, step_of_resp hp⟩

/-! ### What a command leaves unchanged -/

theorem exec_sameRest {i : Instr} {s t : State} (h : exec i s = .next t) : s.SameRest t := by
  rcases exec_cases h with ⟨_, _, _, rfl⟩ | ⟨_, _, _, rfl⟩ | ⟨_, _, _, _, rfl⟩ | ⟨_, _, _, _, rfl⟩ | ⟨_, _, rfl⟩ |
    ⟨_, rfl⟩ | ⟨_, rfl⟩ | ⟨_, _, _, rfl⟩ | ⟨_, _, _, rfl⟩ <;> exact ⟨rfl, rfl, rfl, rfl⟩

/-- A command raises, changing the response alone, or ends in OK (60_exceptions.md R103). -/
theorem exec_raises_or_ok {i : Instr} {s t : State} (h : exec i s = .next t) :
    (∃ st, t = s.raise st) ∨ t.rspStatus = 0 := by
  rcases exec_cases h with ⟨_, _, _, rfl⟩ | ⟨_, _, _, rfl⟩ | ⟨_, _, _, _, rfl⟩ | ⟨_, _, _, _, rfl⟩ | ⟨_, _, rfl⟩ |
    ⟨_, rfl⟩ | ⟨_, rfl⟩ | ⟨_, _, _, rfl⟩ | ⟨_, _, _, rfl⟩
  · exact .inl ⟨.overread, rfl⟩
  · exact .inr rfl
  · exact .inl ⟨.capacity, rfl⟩
  · exact .inr rfl
  · exact .inr rfl
  · exact .inr rfl
  · exact .inr rfl
  · exact .inl ⟨.capacity, rfl⟩
  · exact .inr rfl

theorem exec_error_sameArch {i : Instr} {s t : State} (h : exec i s = .next t) (hst : t.rspStatus ≠ 0) :
    s.SameArch t := by
  obtain ⟨_, rfl⟩ | hok := exec_raises_or_ok h
  · exact ⟨rfl, rfl, rfl⟩
  · exact absurd hok hst

theorem exec_read_keeps_buffer {ct : Nat} {s t : State} (h : exec (.read ct) s = .next t) :
    t.mem = s.mem ∧ t.len = s.len := by
  by_cases ho : s.Overreads ct
  · cases (exec_read_of_overreads ho).symm.trans h
    exact ⟨rfl, rfl⟩
  · cases (exec_read_of_not_overreads ho).symm.trans h
    exact ⟨rfl, rfl⟩

theorem exec_seek_keeps_buffer {d : Int} {s t : State} (h : exec (.seek d) s = .next t) :
    t.mem = s.mem ∧ t.len = s.len := by
  cases (exec_seek d s).symm.trans h
  exact ⟨rfl, rfl⟩

theorem exec_index_sameArch {s t : State} (h : exec .index s = .next t) : s.SameArch t := by
  cases (exec_index s).symm.trans h
  exact ⟨rfl, rfl, rfl⟩

theorem exec_append_keeps_bitIndex {b : Byte} {s t : State} (h : exec (.append b) s = .next t) :
    t.bitIndex = s.bitIndex := by
  by_cases hx : s.ExceedsCap (s.len.toNat + 1)
  · cases (exec_append_of_exceeds b hx).symm.trans h
    rfl
  · cases (exec_append_of_fits b hx).symm.trans h
    rfl

/-! ### What a command depends on -/

theorem overreads_congr {s s' : State} (hl : s.len = s'.len) (hk : s.bitIndex = s'.bitIndex) (ct : Nat) :
    s.Overreads ct ↔ s'.Overreads ct := by
  simp only [State.Overreads, State.endBit, hl, hk]

theorem exceedsCap_congr {s s' : State} (hc : s.bufCap = s'.bufCap) (n : Nat) :
    s.ExceedsCap n ↔ s'.ExceedsCap n := by
  simp only [State.ExceedsCap, hc]

theorem newLen_congr {s s' : State} (hl : s.len = s'.len) (hk : s.bitIndex = s'.bitIndex) (ct : Nat) :
    s.newLen ct = s'.newLen ct := by
  simp only [State.newLen, hl, hk]

theorem seekTarget_congr {s s' : State} (hl : s.len = s'.len) (hk : s.bitIndex = s'.bitIndex) (d : Int) :
    s.seekTarget d = s'.seekTarget d := by
  simp only [State.seekTarget, State.endBit, hl, hk]

theorem byteAt_congr {s t : State} (hm : t.mem = s.mem) (hl : t.len = s.len) (a : Nat) :
    t.byteAt a = s.byteAt a := by
  simp only [State.byteAt, hm, hl]

/-- Two commands that keep equal buffers and end at one bit index end in the same architectural state. -/
theorem sameArch_of_keep_buffer {s s' t t' : State} (hm : s'.mem = s.mem) (hl : s'.len = s.len)
    (ht : t.mem = s.mem ∧ t.len = s.len) (ht' : t'.mem = s'.mem ∧ t'.len = s'.len)
    (hk : t.bitIndex = t'.bitIndex) : t.SameArch t' :=
  ⟨by rw [ht.1, ht'.1, hm], by rw [ht.2, ht'.2, hl], hk.symm⟩

/-- Two commands that keep the architectural state of alike states leave them alike. -/
theorem sameArch_of_keep_arch {s s' t t' : State} (ht : s.SameArch t) (ha : s.SameArch s') (ht' : s'.SameArch t') :
    t.SameArch t' := by
  obtain ⟨hm, hl, hk⟩ := ht
  obtain ⟨hm', hl', hk'⟩ := ht'
  obtain ⟨hms, hls, hks⟩ := ha
  exact ⟨by rw [hm, hm', hms], by rw [hl, hl', hls], by rw [hk, hk', hks]⟩

theorem exec_read_congr {ct : Nat} {s s' t t' : State} (hm : s.mem = s'.mem) (hl : s.len = s'.len)
    (hk : s.bitIndex = s'.bitIndex) (h : exec (.read ct) s = .next t) (h' : exec (.read ct) s' = .next t') :
    t.bitIndex = t'.bitIndex ∧ t.SameRsp t' := by
  by_cases ho : s.Overreads ct
  · have ho' := (overreads_congr hl hk ct).1 ho
    cases (exec_read_of_overreads ho).symm.trans h
    cases (exec_read_of_overreads ho').symm.trans h'
    exact ⟨hk, rfl, rfl, rfl⟩
  · have ho' := mt (overreads_congr hl hk ct).2 ho
    cases (exec_read_of_not_overreads ho).symm.trans h
    cases (exec_read_of_not_overreads ho').symm.trans h'
    exact ⟨by simp [hk], rfl, rfl, by simp [hm, hk]⟩

theorem exec_write_congr {ct : Nat} {v : BitVec 32} {s s' t t' : State} (ha : s.SameArch s')
    (hc : s.bufCap = s'.bufCap) (h : exec (.write ct v) s = .next t) (h' : exec (.write ct v) s' = .next t') :
    t.SameArch t' ∧ t.SameRsp t' := by
  obtain ⟨hm, hl, hk⟩ := ha
  have hn := newLen_congr hl hk ct
  by_cases hx : s.ExceedsCap (s.newLen ct)
  · have hx' : s'.ExceedsCap (s'.newLen ct) := by rwa [hn, ← exceedsCap_congr hc]
    cases (exec_write_of_exceeds v hx).symm.trans h
    cases (exec_write_of_exceeds v hx').symm.trans h'
    exact ⟨⟨hm, hl, hk⟩, rfl, rfl, rfl⟩
  · have hx' : ¬ s'.ExceedsCap (s'.newLen ct) := by rwa [hn, ← exceedsCap_congr hc]
    cases (exec_write_of_fits v hx).symm.trans h
    cases (exec_write_of_fits v hx').symm.trans h'
    exact ⟨⟨by simp [hm, hl, hk], by simp [hn], by simp [hk]⟩, rfl, rfl, rfl⟩

theorem exec_seek_congr {d : Int} {s s' t t' : State} (hl : s.len = s'.len) (hk : s.bitIndex = s'.bitIndex)
    (h : exec (.seek d) s = .next t) (h' : exec (.seek d) s' = .next t') :
    t.bitIndex = t'.bitIndex ∧ t.SameRsp t' := by
  cases (exec_seek d s).symm.trans h
  cases (exec_seek d s').symm.trans h'
  exact ⟨by simp [seekTarget_congr hl hk], rfl, rfl, rfl⟩

theorem exec_index_congr {s s' t t' : State} (hk : s.bitIndex = s'.bitIndex) (h : exec .index s = .next t)
    (h' : exec .index s' = .next t') : t.SameRsp t' := by
  cases (exec_index s).symm.trans h
  cases (exec_index s').symm.trans h'
  exact ⟨rfl, rfl, hk.symm⟩

theorem exec_clear_congr {s s' t t' : State} (h : exec .clear s = .next t) (h' : exec .clear s' = .next t') :
    t.SameArch t' ∧ t.SameRsp t' := by
  cases (exec_clear s).symm.trans h
  cases (exec_clear s').symm.trans h'
  exact ⟨⟨rfl, rfl, rfl⟩, rfl, rfl, rfl⟩

/-- APPEND's answer and new length come from `LEN` and the capacity; its bytes from the bytes as well. -/
theorem exec_append_congr {b : Byte} {s s' t t' : State} (hl : s.len = s'.len) (hc : s.bufCap = s'.bufCap)
    (h : exec (.append b) s = .next t) (h' : exec (.append b) s' = .next t') :
    (s.mem = s'.mem → t.mem = t'.mem) ∧ t.len = t'.len ∧ t.SameRsp t' := by
  by_cases hx : s.ExceedsCap (s.len.toNat + 1)
  · have hx' : s'.ExceedsCap (s'.len.toNat + 1) := by rwa [← hl, ← exceedsCap_congr hc]
    cases (exec_append_of_exceeds b hx).symm.trans h
    cases (exec_append_of_exceeds b hx').symm.trans h'
    exact ⟨id, hl, rfl, rfl, rfl⟩
  · have hx' : ¬ s'.ExceedsCap (s'.len.toNat + 1) := by rwa [← hl, ← exceedsCap_congr hc]
    cases (exec_append_of_fits b hx).symm.trans h
    cases (exec_append_of_fits b hx').symm.trans h'
    exact ⟨fun hm => by simp [hm, hl], by simp [hl], rfl, rfl, rfl⟩

/-- A command's effect and answer are functions of `B`, `LEN`, `BIT_INDEX` and the capacity (10_state.md R24). -/
theorem exec_congr {i : Instr} {s s' t t' : State} (ha : s.SameArch s') (hc : s.bufCap = s'.bufCap)
    (h : exec i s = .next t) (h' : exec i s' = .next t') : t.SameArch t' ∧ t.SameRsp t' := by
  obtain ⟨hm, hl, hk⟩ := ha
  cases i with
  | read ct =>
    obtain ⟨hbi, hrsp⟩ := exec_read_congr hm.symm hl.symm hk.symm h h'
    exact ⟨sameArch_of_keep_buffer hm hl (exec_read_keeps_buffer h) (exec_read_keeps_buffer h') hbi, hrsp⟩
  | write ct v => exact exec_write_congr ⟨hm, hl, hk⟩ hc h h'
  | seek d =>
    obtain ⟨hbi, hrsp⟩ := exec_seek_congr hl.symm hk.symm h h'
    exact ⟨sameArch_of_keep_buffer hm hl (exec_seek_keeps_buffer h) (exec_seek_keeps_buffer h') hbi, hrsp⟩
  | index =>
    have harch := sameArch_of_keep_arch (exec_index_sameArch h) ⟨hm, hl, hk⟩ (exec_index_sameArch h')
    exact ⟨harch, exec_index_congr hk.symm h h'⟩
  | clear => exact exec_clear_congr h h'
  | append b =>
    obtain ⟨hmem, hlen, hrsp⟩ := exec_append_congr hl.symm hc h h'
    have hbi : t'.bitIndex = t.bitIndex := by
      rw [exec_append_keeps_bitIndex h, exec_append_keeps_bitIndex h', hk]
    exact ⟨⟨(hmem hm.symm).symm, hlen.symm, hbi⟩, hrsp⟩

/-! ### Lengths -/

/-- A length within the capacity fits `LEN`. -/
theorem toNat_ofNat_of_fits {s : State} {n : Nat} (h : ¬ s.ExceedsCap n) : (BitVec.ofNat 64 n).toNat = n := by
  have := bufCap_lt s
  exact toNat_ofNat_of_lt (by omega)

theorem exec_write_len_le {ct : Nat} {v : BitVec 32} {s t : State} (h : exec (.write ct v) s = .next t) :
    s.len.toNat ≤ t.len.toNat := by
  by_cases hx : s.ExceedsCap (s.newLen ct)
  · cases (exec_write_of_exceeds v hx).symm.trans h
    exact le_rfl
  · cases (exec_write_of_fits v hx).symm.trans h
    calc s.len.toNat ≤ s.newLen ct := len_le_newLen s ct
      _ = (BitVec.ofNat 64 (s.newLen ct)).toNat := (toNat_ofNat_of_fits hx).symm

theorem exec_append_len_le {b : Byte} {s t : State} (h : exec (.append b) s = .next t) :
    s.len.toNat ≤ t.len.toNat := by
  by_cases hx : s.ExceedsCap (s.len.toNat + 1)
  · cases (exec_append_of_exceeds b hx).symm.trans h
    exact le_rfl
  · cases (exec_append_of_fits b hx).symm.trans h
    calc s.len.toNat ≤ s.len.toNat + 1 := Nat.le_succ _
      _ = (BitVec.ofNat 64 (s.len.toNat + 1)).toNat := (toNat_ofNat_of_fits hx).symm

theorem exec_len_le {i : Instr} {s t : State} (hi : i ≠ .clear) (h : exec i s = .next t) :
    s.len.toNat ≤ t.len.toNat := by
  cases i with
  | read ct => rw [(exec_read_keeps_buffer h).2]
  | write ct v => exact exec_write_len_le h
  | seek d => rw [(exec_seek_keeps_buffer h).2]
  | index => rw [(exec_index_sameArch h).2.1]
  | clear => exact absurd rfl hi
  | append b => exact exec_append_len_le h

/-! ### What keeps a state legal -/

theorem rspLegal_of_not_resp {s : State} (h : s.phase ≠ .resp) : s.RspLegal := fun hp => absurd hp h

theorem Status.code_toNat_le (st : Status) : st.code.toNat ≤ 3 := by cases st <;> decide

/-- A state with the registers and the capacity of a legal one is legal when its held response is. -/
theorem inv_of_sameArch {s t : State} (hs : s.Inv) (ha : s.SameArch t) (hc : t.bufCap = s.bufCap)
    (hr : t.RspLegal) : t.Inv := by
  obtain ⟨hwf, hbelow, hlen, hidx, _⟩ := hs
  obtain ⟨hm, hl, hk⟩ := ha
  exact ⟨by rwa [hm], by rwa [hm, hl], by rwa [hl, hc], by rwa [State.endBit, hl, hk], hr⟩

theorem inv_raise {s : State} (hs : s.Inv) (st : Status) : (s.raise st).Inv :=
  inv_of_sameArch hs ⟨rfl, rfl, rfl⟩ rfl fun _ => ⟨st.code_toNat_le, fun _ => rfl⟩

theorem inv_respond_ok {s : State} (hs : s.Inv) (d : Word) : (s.respond .ok d).Inv :=
  inv_of_sameArch hs ⟨rfl, rfl, rfl⟩ rfl fun _ => ⟨Status.ok.code_toNat_le, fun h => absurd rfl h⟩

theorem inv_setBitIndex {s : State} (hs : s.Inv) {n : Nat} (hn : n ≤ s.endBit) : (s.setBitIndex n).Inv := by
  obtain ⟨hwf, hbelow, hlen, _, hrsp⟩ := hs
  have hofNat : (BitVec.ofNat 64 n).toNat ≤ n := by
    rw [BitVec.toNat_ofNat]; exact Nat.mod_le _ _
  exact ⟨hwf, hbelow, hlen, hofNat.trans hn, hrsp⟩

theorem inv_grow {s : State} (hs : s.Inv) {n : Nat} (hn : s.len.toNat ≤ n) (hx : ¬ s.ExceedsCap n) :
    (s.grow n).Inv := by
  obtain ⟨hwf, hbelow, _, hidx, hrsp⟩ := hs
  have hlen : (s.grow n).len.toNat = n := toNat_ofNat_of_fits hx
  refine ⟨Memory.wf_zeroFrom hwf _, ?_, ?_, ?_, hrsp⟩
  · rw [hlen]; exact Memory.below_mono (Memory.below_zeroFrom _ _) hn
  · rw [hlen]; exact Nat.not_lt.1 hx
  · rw [State.endBit] at hidx ⊢
    rw [hlen, State.grow_bitIndex]; omega

theorem inv_putField {s : State} (hs : s.Inv) {ct : Nat} (hf : s.bitIndex.toNat + ct ≤ s.endBit) (v : Nat) :
    (s.putField ct v).Inv := by
  obtain ⟨hwf, hbelow, hlen, hidx, hrsp⟩ := hs
  exact ⟨Memory.wf_bitWrite hwf _ _ _, Memory.below_bitWrite hbelow hf _, hlen, hidx, hrsp⟩

theorem inv_emptyBuffer {s : State} (hs : s.Inv) : s.emptyBuffer.Inv := by
  obtain ⟨_, _, _, _, hrsp⟩ := hs
  exact ⟨rfl, rfl, Nat.zero_le _, Nat.zero_le _, hrsp⟩

theorem inv_appendByte {s : State} (hs : s.Inv) (hx : ¬ s.ExceedsCap (s.len.toNat + 1)) (b : Byte) :
    (s.appendByte b).Inv := by
  obtain ⟨hwf, hbelow, _, hidx, hrsp⟩ := hs
  have hlen : (s.appendByte b).len.toNat = s.len.toNat + 1 := toNat_ofNat_of_fits hx
  refine ⟨Memory.wf_write (Memory.wf_zeroFrom hwf _) _ _, ?_, ?_, ?_, hrsp⟩
  · rw [hlen]
    exact Memory.below_write (Memory.below_mono (Memory.below_zeroFrom _ _) (Nat.le_succ _)) (Nat.lt_succ_self _) _
  · rw [hlen]; exact Nat.not_lt.1 hx
  · rw [State.endBit] at hidx ⊢
    rw [hlen, State.appendByte_bitIndex]; omega

/-- The buffer and the register after a WRITE that fits. -/
theorem inv_write {s : State} (hs : s.Inv) {ct : Nat} (hx : ¬ s.ExceedsCap (s.newLen ct)) (v : Nat) :
    (((s.grow (s.newLen ct)).putField ct v).setBitIndex (s.bitIndex.toNat + ct)).Inv := by
  have hfield : s.bitIndex.toNat + ct ≤ (s.grow (s.newLen ct)).endBit := by
    rw [State.endBit, State.grow_len, toNat_ofNat_of_fits hx]
    exact field_le_newLen s ct
  have hgrown := inv_grow hs (len_le_newLen s ct) hx
  exact inv_setBitIndex (inv_putField hgrown hfield v) hfield

theorem inv_freeRsp {s : State} (hs : s.Inv) (hp : s.phase ≠ .resp) : s.freeRsp.Inv :=
  inv_of_sameArch hs ⟨rfl, rfl, rfl⟩ rfl (rspLegal_of_not_resp hp)

theorem inv_accept {s : State} (hs : s.Inv) (c : Word) (lat : Nat) : (s.accept c lat).Inv :=
  inv_of_sameArch hs ⟨rfl, rfl, rfl⟩ rfl (rspLegal_of_not_resp nofun)

theorem inv_takeRsp {s : State} (hs : s.Inv) : s.takeRsp.Inv :=
  inv_of_sameArch hs ⟨rfl, rfl, rfl⟩ rfl (rspLegal_of_not_resp nofun)

theorem inv_hostTake {s : State} (hs : s.Inv) : s.hostTake.Inv :=
  inv_of_sameArch hs ⟨rfl, rfl, rfl⟩ rfl (rspLegal_of_not_resp nofun)

theorem inv_resetEdge {s : State} (hs : s.Inv) : s.resetEdge.Inv :=
  inv_of_sameArch (inv_emptyBuffer hs) ⟨rfl, rfl, rfl⟩ rfl (rspLegal_of_not_resp nofun)

theorem inv_resetWith (cap : Fin Config.capLimit) : (State.resetWith cap).Inv :=
  ⟨rfl, rfl, Nat.zero_le _, Nat.zero_le _, rspLegal_of_not_resp nofun⟩

/-! ### Commands, steps and edges keep a state legal -/

theorem exec_keeps_inv {i : Instr} {s t : State} (hs : s.Inv) (h : exec i s = .next t) : t.Inv := by
  rcases exec_cases h with ⟨ct, _, _, rfl⟩ | ⟨ct, _, ho, rfl⟩ | ⟨ct, v, _, _, rfl⟩ | ⟨ct, v, _, hx, rfl⟩ |
    ⟨d, _, rfl⟩ | ⟨_, rfl⟩ | ⟨_, rfl⟩ | ⟨b, _, _, rfl⟩ | ⟨b, _, hx, rfl⟩
  · exact inv_raise hs _
  · exact inv_respond_ok (inv_setBitIndex hs (Nat.not_lt.1 ho)) _
  · exact inv_raise hs _
  · exact inv_respond_ok (inv_write hs hx _) _
  · exact inv_respond_ok (inv_setBitIndex hs (seekTarget_le s d)) _
  · exact inv_respond_ok hs _
  · exact inv_respond_ok (inv_emptyBuffer hs) _
  · exact inv_raise hs _
  · exact inv_respond_ok (inv_appendByte hs hx b) _

theorem execute_keeps_inv {c : Word} {s t : State} (hs : s.Inv) (h : execute c s = .next t) : t.Inv := by
  obtain ⟨_, _, rfl⟩ | ⟨_, _, hi⟩ := execute_cases h
  · exact inv_raise hs _
  · exact exec_keeps_inv hs hi

theorem step_keeps_inv {s t : State} (hs : s.Inv) (h : step s = .next t) : t.Inv := by
  rcases step_cases h with ⟨hp, _, rfl⟩ | ⟨c, _, _, _, hx⟩ | ⟨_, _, _, hx⟩ | ⟨_, rfl⟩
  · exact inv_freeRsp hs (by simp [hp])
  · exact execute_keeps_inv (inv_accept hs c 1) hx
  · exact execute_keeps_inv hs hx
  · exact inv_hostTake hs

theorem edge_keeps_inv {lat : Nat} {p : PortIn} {s t : State} (hs : s.Inv) (h : edge lat p s = .next t) :
    t.Inv := by
  rcases edge_cases h with ⟨_, rfl⟩ | ⟨_, _, _, rfl⟩ | ⟨_, hp, _, rfl⟩ | ⟨_, _, _, hx⟩ | ⟨_, _, _, _, rfl⟩ |
    ⟨_, _, _, rfl⟩ | ⟨_, _, _, rfl⟩
  · exact inv_resetEdge hs
  · exact inv_accept hs _ _
  · exact inv_freeRsp hs (by simp [hp])
  · exact execute_keeps_inv hs hx
  · exact inv_of_sameArch hs ⟨rfl, rfl, rfl⟩ rfl (rspLegal_of_not_resp nofun)
  · exact inv_takeRsp hs
  · exact hs

/-! ### The statements -/

/-- Settles O34: by the branches of a step, each event keeping the invariant. -/
theorem everyStepKeepsTheInvariant : Obligations.EveryStepKeepsTheInvariant := by
  intro s t hs h
  exact step_keeps_inv hs h

/-- Settles O37, by induction on the number of steps: a step is total and keeps the invariant. -/
theorem everyRunFromALegalStateIsSafe : Obligations.EveryRunFromALegalStateIsSafe := by
  intro s k hs
  induction k generalizing s with
  | zero => exact ⟨s, core_run_zero s, hs⟩
  | succ k ih =>
    obtain ⟨t, ht⟩ := step_total s
    rw [SafeRun, core_run_succ ht]
    exact ih t (step_keeps_inv hs ht)

/-- Settles O28: growth within the capacity does not narrow, and the commands that store nothing keep the buffer. -/
theorem onlyClearShrinksTheBuffer : Obligations.OnlyClearShrinksTheBuffer := by
  intro i s t h
  refine ⟨fun hi => exec_len_le hi h, ?_⟩
  rintro ⟨a, ha⟩
  cases i with
  | read ct =>
    obtain ⟨hm, hl⟩ := exec_read_keeps_buffer h
    exact absurd (byteAt_congr hm hl a) ha
  | write ct v => exact .inl ⟨ct, v, rfl⟩
  | seek d =>
    obtain ⟨hm, hl⟩ := exec_seek_keeps_buffer h
    exact absurd (byteAt_congr hm hl a) ha
  | index =>
    obtain ⟨hm, hl, _⟩ := exec_index_sameArch h
    exact absurd (byteAt_congr hm hl a) ha
  | clear => exact .inr (.inl rfl)
  | append b => exact .inr (.inr ⟨b, rfl⟩)

/-- Settles O30, from the congruence of each of the four commands in its read set. -/
theorem commandsReadOnlyTheirReadSets : Obligations.CommandsReadOnlyTheirReadSets := by
  intro i s s' t t' h h'
  refine ⟨?_, ?_, ?_, ?_⟩
  · rintro ⟨d, rfl⟩ hl hk
    exact exec_seek_congr hl hk h h'
  · rintro rfl hk
    exact exec_index_congr hk h h'
  · rintro rfl
    exact exec_clear_congr h h'
  · rintro ⟨b, rfl⟩ hl hc
    exact (exec_append_congr hl hc h h').2

/-- Settles O35: by the branches of a clock edge, each keeping the invariant. -/
theorem everyEdgeKeepsTheInvariant : Obligations.EveryEdgeKeepsTheInvariant := by
  intro s t lat p hs h
  exact edge_keeps_inv hs h

/-- Settles O38: an illegal word is answered alike, and a command by `exec_congr`. -/
theorem resultsIgnoreTheInterfaceState : Obligations.ResultsIgnoreTheInterfaceState := by
  intro c s s' t t' ha hc h h'
  cases hd : decode c with
  | error e =>
    cases (execute_of_illegal hd s).symm.trans h
    cases (execute_of_illegal hd s').symm.trans h'
    exact ⟨ha, rfl, rfl, rfl⟩
  | ok i =>
    rw [execute_of_decodes hd] at h h'
    exact exec_congr ha hc h h'

/-- Settles O10: the step of a held response is `hostTake`, that of a waiting block `freeRsp`. -/
theorem stepTakesTheResponseOrWaits : Obligations.StepTakesTheResponseOrWaits := by
  constructor
  · intro s hp
    exact ⟨s.hostTake, step_of_resp hp, ⟨rfl, rfl, rfl⟩, rfl, rfl, rfl, rfl⟩
  · intro s hp hc
    exact ⟨s.freeRsp, step_of_waiting hp hc, ⟨rfl, rfl, rfl⟩, hp, rfl, hc, rfl⟩

/-- Settles O29, from the frame of each command. -/
theorem commandsWriteOnlyTheirWriteSets : Obligations.CommandsWriteOnlyTheirWriteSets := by
  intro i s t h
  refine ⟨exec_error_sameArch h, ?_, ?_, ?_, exec_sameRest h⟩
  · rintro (⟨ct, rfl⟩ | ⟨d, rfl⟩)
    · exact exec_read_keeps_buffer h
    · exact exec_seek_keeps_buffer h
  · rintro rfl
    exact exec_index_sameArch h
  · rintro ⟨b, rfl⟩
    exact exec_append_keeps_bitIndex h

/-- Settles O36: an empty buffer meets every bound, and no response is held. -/
theorem resetMeetsTheInvariant : Obligations.ResetMeetsTheInvariant :=
  ⟨inv_resetWith, inv_resetWith Config.bufCap⟩

/-- Settles O39: each field of the reset state as `State.resetWith` gives it. -/
theorem resetLeavesAnEmptyIdleCursor : Obligations.ResetLeavesAnEmptyIdleCursor :=
  ⟨fun _ => ⟨rfl, rfl, rfl, rfl, rfl, rfl⟩, Config.bufCap, rfl⟩

end Sys2Proof.Machine
end

section
/-! SUPPORT. The family of 20_memory.md: the commands that store nothing. -/

namespace Sys2Proof.Machine

/-- Every command ends with its response held, OK or not (43_bit_cursor_engine.md R93). -/
theorem exec_phase {i : Instr} {s t : State} (h : exec i s = .next t) : t.phase = .resp := by
  rcases exec_cases h with ⟨_, _, _, rfl⟩ | ⟨_, _, _, rfl⟩ | ⟨_, _, _, _, rfl⟩ | ⟨_, _, _, _, rfl⟩ | ⟨_, _, rfl⟩ |
    ⟨_, rfl⟩ | ⟨_, rfl⟩ | ⟨_, _, _, rfl⟩ | ⟨_, _, _, rfl⟩ <;> rfl

theorem exec_keeps_buffer_of_read_seek_index {i : Instr} {s t : State}
    (hi : (∃ ct, i = .read ct) ∨ (∃ d, i = .seek d) ∨ i = .index) (h : exec i s = .next t) :
    t.mem = s.mem ∧ t.len = s.len := by
  obtain ⟨ct, rfl⟩ | ⟨d, rfl⟩ | rfl := hi
  · exact exec_read_keeps_buffer h
  · exact exec_seek_keeps_buffer h
  · obtain ⟨hm, hl, _⟩ := exec_index_sameArch h
    exact ⟨hm, hl⟩

/-- Settles O26: the three commands keep the buffer and its length, from which every byte is read. -/
theorem readSeekIndexStoreNothing : Obligations.ReadSeekIndexStoreNothing := by
  intro i s t hi h
  obtain ⟨hm, hl⟩ := exec_keeps_buffer_of_read_seek_index hi h
  refine ⟨hm, hl, exec_sameRest h, exec_phase h, byteAt_congr hm hl, ?_⟩
  rintro rfl
  obtain ⟨_, _, hk⟩ := exec_index_sameArch h
  exact hk

end Sys2Proof.Machine
end

section
/-! SUPPORT. The family of 30_encoding.md: words, their fields and the commands they spell. -/

namespace Sys2Proof

/-! ### A word and its fields (30_encoding.md R44) -/

theorem opField_toNat (c : Word) : (opField c).toNat = c.toNat / 2 ^ 60 := by
  have := c.isLt
  rw [opField, BitVec.extractLsb'_toNat, Nat.shiftRight_eq_div_pow]
  omega

theorem rsvField_toNat (c : Word) : (rsvField c).toNat = c.toNat / 2 ^ 37 % 2 ^ 23 := by
  rw [rsvField, BitVec.extractLsb'_toNat, Nat.shiftRight_eq_div_pow]

theorem wm1Field_toNat (c : Word) : (wm1Field c).toNat = c.toNat / 2 ^ 32 % 2 ^ 5 := by
  rw [wm1Field, BitVec.extractLsb'_toNat, Nat.shiftRight_eq_div_pow]

theorem immField_toNat (c : Word) : (immField c).toNat = c.toNat % 2 ^ 32 := by
  rw [immField, BitVec.extractLsb'_toNat, Nat.shiftRight_zero]

theorem word_toNat (c : Word) : c.toNat = (opField c).toNat * 2 ^ 60 + (rsvField c).toNat * 2 ^ 37 +
    (wm1Field c).toNat * 2 ^ 32 + (immField c).toNat := by
  rw [opField_toNat, rsvField_toNat, wm1Field_toNat, immField_toNat]
  omega

/-- Words are equal when their four fields are. -/
theorem word_ext_iff {c d : Word} : c = d ↔
    opField c = opField d ∧ rsvField c = rsvField d ∧ wm1Field c = wm1Field d ∧ immField c = immField d := by
  constructor
  · rintro rfl
    exact ⟨rfl, rfl, rfl, rfl⟩
  · rintro ⟨hop, hrsv, hwm1, himm⟩
    apply BitVec.eq_of_toNat_eq
    rw [word_toNat c, word_toNat d, hop, hrsv, hwm1, himm]

/-- A word spells a command when its fields are the command's and `RSV` is zero. -/
theorem encode_eq_iff {i : Instr} {c : Word} :
    encode i = c ↔ opField c = i.op ∧ rsvField c = 0 ∧ wm1Field c = i.wm1 ∧ immField c = i.imm := by
  rw [eq_comm, word_ext_iff, encode, opField_packWord, rsvField_packWord, wm1Field_packWord, immField_packWord]

theorem encode_toNat (i : Instr) :
    (encode i).toNat = i.op.toNat * 2 ^ 60 + i.wm1.toNat * 2 ^ 32 + i.imm.toNat := by
  rw [word_toNat, encode, opField_packWord, rsvField_packWord, wm1Field_packWord, immField_packWord]
  simp

/-! ### Operands and their fields (30_encoding.md R47, R48) -/

theorem widthOk_iff {ct : Nat} : widthOk ct = true ↔ 1 ≤ ct ∧ ct ≤ 32 := by
  rw [widthOk, decide_eq_true_eq, Config.wMin, Config.wMax]

theorem deltaOk_iff {delta : Int} : deltaOk delta = true ↔ -2 ^ 31 ≤ delta ∧ delta < 2 ^ 31 := by
  rw [deltaOk, decide_eq_true_eq, Config.seekW]

theorem toNat_ofNat_width {ct : Nat} (h : widthOk ct = true) : (BitVec.ofNat 5 (ct - 1)).toNat = ct - 1 := by
  rw [widthOk_iff] at h
  rw [BitVec.toNat_ofNat]
  omega

theorem widthOf_ofNat {ct : Nat} (h : widthOk ct = true) : widthOf (BitVec.ofNat 5 (ct - 1)) = ct := by
  rw [widthOf, toNat_ofNat_width h]
  rw [widthOk_iff] at h
  omega

theorem ofNat_widthOf (wm1 : BitVec 5) : BitVec.ofNat 5 (widthOf wm1 - 1) = wm1 := by
  rw [widthOf, Nat.add_sub_cancel, BitVec.ofNat_toNat, BitVec.setWidth_eq]

theorem widthOk_widthOf (wm1 : BitVec 5) : widthOk (widthOf wm1) = true := by
  have := wm1.isLt
  rw [widthOk_iff, widthOf]
  omega

theorem deltaOf_ofInt {delta : Int} (h : deltaOk delta = true) : deltaOf (BitVec.ofInt 32 delta) = delta := by
  rw [deltaOk_iff] at h
  rw [deltaOf, BitVec.toInt_ofInt]
  exact Int.bmod_eq_of_le (by omega) (by omega)

theorem deltaOk_deltaOf (imm : BitVec 32) : deltaOk (deltaOf imm) = true := by
  rw [deltaOk_iff, deltaOf]
  exact ⟨BitVec.le_toInt imm, BitVec.toInt_lt⟩

theorem highBits_getLsbD : ∀ i < 32, (0xFFFFFF00 : BitVec 32).getLsbD i = decide (8 ≤ i) := by decide

theorem setWidth_and_highBits (byte : Byte) : byte.setWidth 32 &&& (0xFFFFFF00 : BitVec 32) = 0 := by
  apply BitVec.eq_of_getLsbD_eq
  intro i hi
  rw [BitVec.getLsbD_and, highBits_getLsbD i hi, BitVec.getLsbD_setWidth]
  by_cases h8 : 8 ≤ i
  · simp [BitVec.getLsbD_of_ge byte i h8]
  · simp [h8]

/-- An `IMM32` with the must-be-zero bits of APPEND zero is its low byte, extended. -/
theorem setWidth_lowByte {imm : BitVec 32} (h : imm &&& 0xFFFFFF00 = 0) :
    (imm.extractLsb' 0 8).setWidth 32 = imm := by
  apply BitVec.eq_of_getLsbD_eq
  intro i hi
  rw [BitVec.getLsbD_setWidth, BitVec.getLsbD_extractLsb', Nat.zero_add]
  by_cases h8 : 8 ≤ i
  · have hbit := congrArg (BitVec.getLsbD · i) h
    simp only [BitVec.getLsbD_and, highBits_getLsbD i hi, h8, decide_true, Bool.and_true] at hbit
    rw [hbit]
    simp
  · simp [hi, Nat.not_le.1 h8]

theorem highBits_eq_zero_iff (imm : BitVec 32) : imm &&& 0xFFFFFF00 = 0 ↔ imm.toNat / 2 ^ 8 = 0 := by
  have hlow : imm.toNat / 2 ^ 8 = 0 ↔ (imm.extractLsb' 0 8).setWidth 32 = imm := by
    rw [← BitVec.toNat_inj, BitVec.toNat_setWidth, BitVec.extractLsb'_toNat, Nat.shiftRight_zero]
    omega
  rw [hlow]
  refine ⟨setWidth_lowByte, fun h => ?_⟩
  rw [← h]
  exact setWidth_and_highBits _

theorem lowByte_setWidth (byte : Byte) : (byte.setWidth 32).extractLsb' 0 8 = byte := by
  rw [BitVec.extractLsb'_setWidth_of_le (by decide), BitVec.extractLsb'_eq_self]

/-! ### Decoding and encoding undo each other (30_encoding.md R55, R57) -/

theorem withZeroFields_eq_ok_iff {wm1 : BitVec 5} {immMbz : BitVec 32} {i j : Instr} :
    withZeroFields wm1 immMbz i = .ok j ↔ wm1 = 0 ∧ immMbz = 0 ∧ i = j := by
  unfold withZeroFields
  split_ifs with hw hm
  · exact ⟨nofun, fun h => absurd h.1 hw⟩
  · exact ⟨nofun, fun h => absurd h.2.1 hm⟩
  · rw [Except.ok.injEq]
    exact ⟨fun h => ⟨not_not.1 hw, not_not.1 hm, h⟩, fun h => h.2.2⟩

theorem decode_encode {i : Instr} (h : i.wf = true) : decode (encode i) = .ok i := by
  simp only [decode, encode, opField_packWord, rsvField_packWord, wm1Field_packWord, immField_packWord]
  cases i with
  | read ct => simp [Instr.op, Instr.wm1, Instr.imm, widthOf_ofNat h]
  | write ct v => simp [Instr.op, Instr.wm1, Instr.imm, widthOf_ofNat h]
  | seek d => simp [Instr.op, Instr.wm1, Instr.imm, withZeroFields_eq_ok_iff, deltaOf_ofInt h]
  | index => simp [Instr.op, Instr.wm1, Instr.imm, withZeroFields_eq_ok_iff]
  | clear => simp [Instr.op, Instr.wm1, Instr.imm, withZeroFields_eq_ok_iff]
  | append b =>
    have := setWidth_and_highBits b
    simp_all [Instr.op, Instr.wm1, Instr.imm, withZeroFields_eq_ok_iff, lowByte_setWidth]

/-- A word that decodes has its command's fields, its must-be-zero fields included, and operands in range. -/
theorem fields_of_decode {c : Word} {i : Instr} (h : decode c = .ok i) :
    i.wf = true ∧ opField c = i.op ∧ rsvField c = 0 ∧ wm1Field c = i.wm1 ∧ immField c = i.imm := by
  simp only [decode] at h
  split_ifs at h with hrsv h1 himm h2 h3 h4 h5 h6
  · cases h
    exact ⟨widthOk_widthOf _, h1, not_not.1 hrsv, (ofNat_widthOf _).symm, not_not.1 himm⟩
  · cases h
    exact ⟨widthOk_widthOf _, h2, not_not.1 hrsv, (ofNat_widthOf _).symm, rfl⟩
  · obtain ⟨hwm1, _, rfl⟩ := withZeroFields_eq_ok_iff.1 h
    exact ⟨deltaOk_deltaOf _, h3, not_not.1 hrsv, hwm1, BitVec.ofInt_toInt.symm⟩
  · obtain ⟨hwm1, himm, rfl⟩ := withZeroFields_eq_ok_iff.1 h
    exact ⟨rfl, h4, not_not.1 hrsv, hwm1, himm⟩
  · obtain ⟨hwm1, himm, rfl⟩ := withZeroFields_eq_ok_iff.1 h
    exact ⟨rfl, h5, not_not.1 hrsv, hwm1, himm⟩
  · obtain ⟨hwm1, himm, rfl⟩ := withZeroFields_eq_ok_iff.1 h
    exact ⟨rfl, h6, not_not.1 hrsv, hwm1, (setWidth_lowByte himm).symm⟩

/-- A word decodes as a command exactly when its fields are those of the command and the operands are in range. -/
theorem decode_eq_ok_iff {c : Word} {i : Instr} : decode c = .ok i ↔
    i.wf = true ∧ opField c = i.op ∧ rsvField c = 0 ∧ wm1Field c = i.wm1 ∧ immField c = i.imm := by
  refine ⟨fields_of_decode, ?_⟩
  rintro ⟨hwf, hfields⟩
  rw [← encode_eq_iff.2 hfields, decode_encode hwf]

/-! ### The opcode table (spec/opcode_table.json) -/

/-- A table mask: `OP` and `RSV` in full, and the given bits of `WM1` and `IMM32`. -/
def maskWord (wm1Mask : BitVec 5) (immMask : BitVec 32) : Word := ~~~packWord 0 (~~~wm1Mask) (~~~immMask)

/-- A row of the opcode table from its mnemonic, its `OP`, and the bits of `WM1` and `IMM32` that must be zero. -/
def tableRow (name : String) (op : BitVec 4) (wm1Mask : BitVec 5) (immMask : BitVec 32) : String × Word × Word :=
  (name, packWord op 0 0, maskWord wm1Mask immMask)

theorem opcodeTable_eq : opcodeTable =
    [tableRow "READ" 1 0 (BitVec.allOnes 32),
     tableRow "WRITE" 2 0 0,
     tableRow "SEEK" 3 (BitVec.allOnes 5) 0,
     tableRow "INDEX" 4 (BitVec.allOnes 5) (BitVec.allOnes 32),
     tableRow "CLEAR" 5 (BitVec.allOnes 5) (BitVec.allOnes 32),
     tableRow "APPEND" 6 (BitVec.allOnes 5) 0xFFFFFF00] := by decide

theorem extractLsb'_and_not (c d : Word) {start len : Nat} (h : start + len ≤ 64) :
    (c &&& ~~~d).extractLsb' start len = c.extractLsb' start len &&& ~~~d.extractLsb' start len := by
  apply BitVec.eq_of_getLsbD_eq
  intro i hi
  have : start + i < 64 := by omega
  simp [hi, this]

/-- The mask keeps `OP` and `RSV`, and of the other fields the masked bits. -/
theorem fields_and_maskWord (c : Word) (wm1Mask : BitVec 5) (immMask : BitVec 32) :
    opField (c &&& maskWord wm1Mask immMask) = opField c ∧ rsvField (c &&& maskWord wm1Mask immMask) = rsvField c ∧
      wm1Field (c &&& maskWord wm1Mask immMask) = wm1Field c &&& wm1Mask ∧
      immField (c &&& maskWord wm1Mask immMask) = immField c &&& immMask := by
  have hop := opField_packWord 0 (~~~wm1Mask) (~~~immMask)
  have hrsv := rsvField_packWord 0 (~~~wm1Mask) (~~~immMask)
  have hwm1 := wm1Field_packWord 0 (~~~wm1Mask) (~~~immMask)
  have himm := immField_packWord 0 (~~~wm1Mask) (~~~immMask)
  unfold opField rsvField wm1Field immField at *
  refine ⟨?_, ?_, ?_, ?_⟩
  · rw [maskWord, extractLsb'_and_not _ _ (by decide), hop]
    exact BitVec.and_allOnes
  · rw [maskWord, extractLsb'_and_not _ _ (by decide), hrsv]
    exact BitVec.and_allOnes
  · rw [maskWord, extractLsb'_and_not _ _ (by decide), hwm1, BitVec.not_not]
  · rw [maskWord, extractLsb'_and_not _ _ (by decide), himm, BitVec.not_not]

theorem rowMatches_tableRow (c : Word) (name : String) (op : BitVec 4) (wm1Mask : BitVec 5) (immMask : BitVec 32) :
    rowMatches c (tableRow name op wm1Mask immMask) = true ↔
      opField c = op ∧ rsvField c = 0 ∧ wm1Field c &&& wm1Mask = 0 ∧ immField c &&& immMask = 0 := by
  obtain ⟨hop, hrsv, hwm1, himm⟩ := fields_and_maskWord c wm1Mask immMask
  rw [rowMatches, beq_iff_eq, tableRow, word_ext_iff, hop, hrsv, hwm1, himm, opField_packWord, rsvField_packWord,
    wm1Field_packWord, immField_packWord]

/-- A word that a row matches is legal. -/
theorem decode_ok_of_rowMatches {c : Word} {row : String × Word × Word} (hrow : row ∈ opcodeTable)
    (h : rowMatches c row = true) : ∃ i, decode c = .ok i := by
  rw [opcodeTable_eq] at hrow
  simp only [List.mem_cons, List.not_mem_nil, or_false] at hrow
  rcases hrow with rfl | rfl | rfl | rfl | rfl | rfl <;>
    obtain ⟨hop, hrsv, hwm1, himm⟩ := (rowMatches_tableRow ..).1 h
  · rw [BitVec.and_allOnes] at himm
    exact ⟨.read (widthOf (wm1Field c)),
      decode_eq_ok_iff.2 ⟨widthOk_widthOf _, hop, hrsv, (ofNat_widthOf _).symm, himm⟩⟩
  · exact ⟨.write (widthOf (wm1Field c)) (immField c),
      decode_eq_ok_iff.2 ⟨widthOk_widthOf _, hop, hrsv, (ofNat_widthOf _).symm, rfl⟩⟩
  · rw [BitVec.and_allOnes] at hwm1
    exact ⟨.seek (deltaOf (immField c)),
      decode_eq_ok_iff.2 ⟨deltaOk_deltaOf _, hop, hrsv, hwm1, BitVec.ofInt_toInt.symm⟩⟩
  · rw [BitVec.and_allOnes] at hwm1 himm
    exact ⟨.index, decode_eq_ok_iff.2 ⟨rfl, hop, hrsv, hwm1, himm⟩⟩
  · rw [BitVec.and_allOnes] at hwm1 himm
    exact ⟨.clear, decode_eq_ok_iff.2 ⟨rfl, hop, hrsv, hwm1, himm⟩⟩
  · rw [BitVec.and_allOnes] at hwm1
    exact ⟨.append ((immField c).extractLsb' 0 8),
      decode_eq_ok_iff.2 ⟨rfl, hop, hrsv, hwm1, (setWidth_lowByte himm).symm⟩⟩

/-- A legal word matches the one row of its command: the opcode excludes the other five. -/
theorem filter_rowMatches_of_decode {c : Word} {i : Instr} (h : decode c = .ok i) :
    ∃ row, opcodeTable.filter (rowMatches c) = [row] ∧ i.mnemonic = row.1 := by
  obtain ⟨_, hop, hrsv, hwm1, himm⟩ := fields_of_decode h
  rw [opcodeTable_eq]
  simp only [List.filter_cons, List.filter_nil, rowMatches_tableRow, hop, hrsv, hwm1, himm]
  cases i with
  | read ct => exact ⟨tableRow "READ" 1 0 (BitVec.allOnes 32), by simp [Instr.op, Instr.imm], rfl⟩
  | write ct v => exact ⟨tableRow "WRITE" 2 0 0, by simp [Instr.op], rfl⟩
  | seek d => exact ⟨tableRow "SEEK" 3 (BitVec.allOnes 5) 0, by simp [Instr.op, Instr.wm1], rfl⟩
  | index =>
    exact ⟨tableRow "INDEX" 4 (BitVec.allOnes 5) (BitVec.allOnes 32), by simp [Instr.op, Instr.wm1, Instr.imm], rfl⟩
  | clear =>
    exact ⟨tableRow "CLEAR" 5 (BitVec.allOnes 5) (BitVec.allOnes 32), by simp [Instr.op, Instr.wm1, Instr.imm], rfl⟩
  | append b =>
    have hbyte := setWidth_and_highBits b
    exact ⟨tableRow "APPEND" 6 (BitVec.allOnes 5) 0xFFFFFF00, by simp_all [Instr.op, Instr.wm1, Instr.imm], rfl⟩

/-! ### The pseudocode over numbers (30_encoding.md R55) -/

theorem withZeroFields_toOption (wm1 : BitVec 5) (immMbz : BitVec 32) (i : Instr) :
    (withZeroFields wm1 immMbz i).toOption = if wm1 ≠ 0 ∨ immMbz ≠ 0 then none else some i := by
  simp only [withZeroFields, apply_ite Except.toOption, ite_or]
  rfl

theorem ofNat_toNat_imm (imm : BitVec 32) : BitVec.ofNat 32 imm.toNat = imm := by
  rw [BitVec.ofNat_toNat, BitVec.setWidth_eq]

theorem deltaOf_eq (imm : BitVec 32) :
    deltaOf imm = if imm.toNat < 2 ^ 31 then (imm.toNat : Int) else (imm.toNat : Int) - 2 ^ 32 := by
  rw [deltaOf, BitVec.toInt_eq_toNat_cond]
  split_ifs <;> omega

theorem lowByte_eq (imm : BitVec 32) : imm.extractLsb' 0 8 = BitVec.ofNat 8 imm.toNat := by
  rw [BitVec.ofNat_toNat, BitVec.setWidth_eq_extractLsb' (by decide)]

end Sys2Proof

namespace Sys2Proof.Machine

/-! ### Lines of assembly (30_encoding.md R61) -/

theorem widthOperand_eq (x : Int) :
    widthOperand x = if 1 ≤ x ∧ x ≤ 32 then .ok x.toNat else .error .outOfRange := by
  have hrange : ((Config.wMin : Int) ≤ x ∧ x < (Config.wMax + 1 : Nat)) ↔ (1 ≤ x ∧ x ≤ 32) := by
    simp only [Config.wMin, Config.wMax]
    omega
  rw [widthOperand, operandIn, if_congr hrange rfl rfl]

theorem valueOperand_eq (x : Int) :
    operandIn 0 (2 ^ 32) x = if 0 ≤ x ∧ x < 2 ^ 32 then .ok x.toNat else .error .outOfRange := by
  rw [operandIn, Nat.cast_zero, Nat.cast_pow, Nat.cast_ofNat]

theorem ofNat_toNat_of_nonneg {x : Int} (h : 0 ≤ x) (n : Nat) : BitVec.ofNat n x.toNat = BitVec.ofInt n x := by
  lift x to Nat using h
  simp

theorem byteOperand_eq (x : Int) :
    byteOperand x = if 0 ≤ x ∧ x < 256 then .ok (BitVec.ofInt 8 x) else .error .outOfRange := by
  rw [byteOperand, operandIn, Nat.cast_zero, Nat.cast_ofNat]
  by_cases h : 0 ≤ x ∧ x < 256
  · rw [if_pos h, if_pos h, ← ofNat_toNat_of_nonneg h.1]
    rfl
  · rw [if_neg h, if_neg h]
    rfl

theorem read_words (ct : Int) : (AsmLine.read ct).words =
    if 1 ≤ ct ∧ ct ≤ 32 then .ok [encode (.read ct.toNat)] else .error .outOfRange := by
  rw [AsmLine.words, AsmLine.instrs, widthOperand_eq]
  split_ifs <;> rfl

theorem write_words (ct v : Int) : (AsmLine.write ct v).words =
    if (1 ≤ ct ∧ ct ≤ 32) ∧ 0 ≤ v ∧ v < 2 ^ 32 then .ok [encode (.write ct.toNat (BitVec.ofInt 32 v))]
    else .error .outOfRange := by
  rw [AsmLine.words, AsmLine.instrs, widthOperand_eq, valueOperand_eq]
  by_cases hct : 1 ≤ ct ∧ ct ≤ 32
  · by_cases hv : 0 ≤ v ∧ v < 2 ^ 32
    · rw [if_pos hct, if_pos hv, if_pos ⟨hct, hv⟩, ← ofNat_toNat_of_nonneg hv.1]
      rfl
    · rw [if_pos hct, if_neg hv, if_neg (not_and_of_not_right _ hv)]
      rfl
  · rw [if_neg hct, if_neg (not_and_of_not_left (0 ≤ v ∧ v < 2 ^ 32) hct)]
    split_ifs <;> rfl

theorem seek_words (d : Int) : (AsmLine.seek d).words =
    if -2 ^ 31 ≤ d ∧ d < 2 ^ 31 then .ok [encode (.seek d)] else .error .outOfRange := by
  rw [AsmLine.words, AsmLine.instrs, if_congr deltaOk_iff rfl rfl]
  split_ifs <;> rfl

theorem append_words (b : Int) : (AsmLine.append b).words =
    if 0 ≤ b ∧ b < 256 then .ok [encode (.append (BitVec.ofInt 8 b))] else .error .outOfRange := by
  rw [AsmLine.words, AsmLine.instrs, byteOperand_eq]
  split_ifs <;> rfl

/-! ### Response data (30_encoding.md R60) -/

theorem exec_read_rspData {ct : Nat} {s t : State} (h : exec (.read ct) s = .next t) (hst : t.rspStatus = 0) :
    t.rspData = BitVec.ofNat 64 (Memory.bitRead s.mem s.bitIndex.toNat ct) := by
  by_cases ho : s.Overreads ct
  · cases (exec_read_of_overreads ho).symm.trans h
    exact absurd hst (show (1 : BitVec 3) ≠ 0 by decide)
  · cases (exec_read_of_not_overreads ho).symm.trans h
    rfl

theorem bitRead_toNat_ofNat (m : Memory) (p : Nat) {ct : Nat} (h : widthOk ct = true) :
    (BitVec.ofNat 64 (Memory.bitRead m p ct)).toNat = Memory.bitRead m p ct := by
  have hct : ct ≤ 64 := by
    rw [widthOk_iff] at h
    omega
  exact toNat_ofNat_of_lt ((Memory.bitRead_lt m p ct).trans_le (Nat.pow_le_pow_right (by decide) hct))

/-- An error, and every command but READ and INDEX, answers data 0. -/
theorem exec_rspData_zero {i : Instr} {s t : State} (h : exec i s = .next t)
    (hi : ((∀ ct, i ≠ .read ct) ∧ i ≠ .index) ∨ t.rspStatus ≠ 0) : t.rspData = 0 := by
  rcases exec_cases h with ⟨_, _, _, rfl⟩ | ⟨ct, hr, _, rfl⟩ | ⟨_, _, _, _, rfl⟩ | ⟨_, _, _, _, rfl⟩ | ⟨_, _, rfl⟩ |
    ⟨hx, rfl⟩ | ⟨_, rfl⟩ | ⟨_, _, _, rfl⟩ | ⟨_, _, _, rfl⟩
  · rfl
  · obtain ⟨hread, _⟩ | hst := hi
    · exact absurd hr (hread ct)
    · exact absurd rfl hst
  · rfl
  · rfl
  · rfl
  · obtain ⟨_, hindex⟩ | hst := hi
    · exact absurd hx hindex
    · exact absurd rfl hst
  · rfl
  · rfl
  · rfl

/-! ### Running the host's commands, word by word (43_bit_cursor_engine.md R91, R98) -/

/-- The two steps of a well-formed command at the head of the host's list. -/
theorem core_run_encoded {s u : State} {i : Instr} {rest : List Word} (hp : s.phase = .idle)
    (hc : s.cmds = encode i :: rest) (hwf : i.wf = true) (hx : exec i (s.accept (encode i) 1) = .next u) (k : Nat) :
    Sys2Proof.core.run (k + 2) s = Sys2Proof.core.run k u.hostTake :=
  core_run_command hp hc (decode_encode hwf) hx (exec_phase hx) k

/-! ### ATTACH (30_encoding.md R62) -/

theorem bytes_congr {s t : State} (hm : t.mem = s.mem) (hl : t.len = s.len) : t.bytes = s.bytes := by
  rw [State.bytes, State.bytes, hl]
  exact List.map_congr_left fun a _ => byteAt_congr hm hl a

theorem appendByte_bytes {s : State} (hs : s.Inv) (hx : ¬ s.ExceedsCap (s.len.toNat + 1)) (b : Byte) :
    (s.appendByte b).bytes = s.bytes ++ [b] := by
  obtain ⟨hwf, _, _, _, _⟩ := hs
  have h64 : s.len.toNat + 1 < 2 ^ 64 := by
    have := bufCap_lt s
    omega
  have hbyte := appendByte_byteAt s hwf h64 b
  rw [State.bytes, State.appendByte_len, toNat_ofNat_of_lt h64, List.range_succ, List.map_append, List.map_singleton,
    hbyte, if_pos rfl, State.bytes]
  congr 1
  refine List.map_congr_left fun a ha => ?_
  rw [hbyte, if_neg (List.mem_range.1 ha).ne]

/-- `t` is the idle state after the bytes `bs` were appended to the buffer of `s`, each with the answer OK and data 0,
and with the host's commands `rest` still to come. -/
structure AppendedFrom (s : State) (bs : List Byte) (rest : List Word) (t : State) : Prop where
  bytes : t.bytes = s.bytes ++ bs
  len : t.len.toNat = s.len.toNat + bs.length
  bitIndex : t.bitIndex = s.bitIndex
  phase : t.phase = .idle
  cmds : t.cmds = rest
  taken : t.taken = s.taken ++ List.replicate bs.length (0, 0)

theorem core_run_append {s : State} {b : Byte} {rest : List Word} (hs : s.Inv) (hp : s.phase = .idle)
    (hc : s.cmds = encode (.append b) :: rest) (hfit : s.len.toNat + 1 ≤ s.bufCap.val) : ∃ t : State,
      (∀ k, Sys2Proof.core.run (k + 2) s = Sys2Proof.core.run k t) ∧ t.Inv ∧ t.bufCap = s.bufCap ∧
      AppendedFrom s [b] rest t := by
  have hx : ¬ s.ExceedsCap (s.len.toNat + 1) := Nat.not_lt.2 hfit
  have hexec : exec (.append b) (s.accept (encode (.append b)) 1) = _ := exec_append_of_fits b hx
  refine ⟨_, core_run_encoded hp hc rfl hexec, inv_hostTake (exec_keeps_inv (inv_accept hs _ 1) hexec), rfl, ?_⟩
  exact {
    bytes := (bytes_congr rfl rfl).trans (appendByte_bytes hs hx b)
    len := toNat_ofNat_of_fits hx
    bitIndex := rfl
    phase := rfl
    cmds := by simp [hc]
    taken := rfl }

theorem AppendedFrom.cons {s t u : State} {b : Byte} {bs : List Byte} {rest' rest : List Word}
    (h : AppendedFrom s [b] rest' t) (h' : AppendedFrom t bs rest u) : AppendedFrom s (b :: bs) rest u where
  bytes := by simp [h'.bytes, h.bytes]
  len := by
    rw [h'.len, h.len, List.length_singleton, List.length_cons]
    omega
  bitIndex := h'.bitIndex.trans h.bitIndex
  phase := h'.phase
  cmds := h'.cmds
  taken := by simp [h'.taken, h.taken, List.replicate_succ]

theorem core_run_appends (bs : List Byte) {s : State} {rest : List Word} (hs : s.Inv) (hp : s.phase = .idle)
    (hc : s.cmds = (bs.map Instr.append).map encode ++ rest) (hfit : s.len.toNat + bs.length ≤ s.bufCap.val) :
    ∃ t : State, Sys2Proof.core.run (2 * bs.length) s = .next t ∧ AppendedFrom s bs rest t := by
  induction bs generalizing s with
  | nil => exact ⟨s, core_run_zero s, by simp, by simp, rfl, hp, by simpa using hc, by simp⟩
  | cons b bs ih =>
    rw [List.length_cons] at hfit
    obtain ⟨t, hrun, ht, hcap, happ⟩ := core_run_append hs hp hc (by omega)
    have hlen : t.len.toNat = s.len.toNat + 1 := happ.len
    obtain ⟨u, hu, happ'⟩ := ih ht happ.phase happ.cmds (by rw [hlen, hcap]; omega)
    exact ⟨u, (hrun _).trans hu, happ.cons happ'⟩

/-! ### SEEKL (30_encoding.md R62) -/

theorem seeksOf_length (chunk : Nat) (sign : Int) (k n : Nat) : (seeksOf chunk sign k n).length = k := by
  induction k generalizing n with
  | zero => rfl
  | succ k ih => rw [seeksOf, List.length_cons, ih]

theorem deltaOk_seekChunk {sign : Int} (hsign : -1 ≤ sign ∧ sign ≤ 1) (n : Nat) :
    deltaOk (sign * (min n seekChunk : Nat)) = true := by
  have hmin : min n seekChunk ≤ 2 ^ 31 - 1 := min_le_right _ _
  have hcases : sign = -1 ∨ sign = 0 ∨ sign = 1 := by omega
  rw [deltaOk_iff]
  rcases hcases with rfl | rfl | rfl <;> omega

theorem seeksOf_wf {sign : Int} (hsign : -1 ≤ sign ∧ sign ≤ 1) (k n : Nat) :
    ∀ i ∈ seeksOf seekChunk sign k n, i.wf = true := by
  induction k generalizing n with
  | zero => nofun
  | succ k ih => exact List.forall_mem_cons.2 ⟨deltaOk_seekChunk hsign n, ih _⟩

theorem sign_bounds (d : Int) : -1 ≤ d.sign ∧ d.sign ≤ 1 := by
  rcases Int.sign_trichotomy d with h | h | h <;> omega

theorem natAbs_le_seeklCount (d : Int) : d.natAbs ≤ seeklCount d * seekChunk := by
  unfold seeklCount seekChunk
  omega

/-- Seeks of one sign add up, whether or not an end of the buffer is met on the way (43_bit_cursor_engine.md R84). -/
theorem clamp_clamp_add {b a a' hi : Int} (hsign : (0 ≤ a ∧ 0 ≤ a') ∨ (a ≤ 0 ∧ a' ≤ 0)) (hb : 0 ≤ b ∧ b ≤ hi) :
    clamp (clamp (b + a) 0 hi + a') 0 hi = clamp (b + (a + a')) 0 hi := by
  unfold clamp
  omega

/-- Two seeks with one sign are the seek by the sum of their magnitudes. -/
theorem clamp_seek_seek (sign : Int) (m m' : Nat) {b hi : Int} (hb : 0 ≤ b ∧ b ≤ hi) :
    clamp (clamp (b + sign * m) 0 hi + sign * m') 0 hi = clamp (b + sign * (m + m' : Nat)) 0 hi := by
  have hsame : (0 ≤ sign * m ∧ 0 ≤ sign * m') ∨ (sign * m ≤ 0 ∧ sign * m' ≤ 0) := by
    rcases le_total 0 sign with h | h
    · exact .inl ⟨mul_nonneg h (by omega), mul_nonneg h (by omega)⟩
    · exact .inr ⟨mul_nonpos_of_nonpos_of_nonneg h (by omega), mul_nonpos_of_nonpos_of_nonneg h (by omega)⟩
  rw [clamp_clamp_add hsame hb, Nat.cast_add, mul_add]

/-- `t` is the idle state after the bit index of `s` was moved by `d` within the buffer, with the host's commands
`rest` still to come. -/
structure SoughtFrom (s : State) (d : Int) (rest : List Word) (t : State) : Prop where
  bitIndex : (t.bitIndex.toNat : Int) = clamp (s.bitIndex.toNat + d) 0 s.endBit
  mem : t.mem = s.mem
  len : t.len = s.len
  phase : t.phase = .idle
  cmds : t.cmds = rest

theorem endBit_lt {s : State} (hs : s.Inv) : s.endBit < 2 ^ 64 := by
  obtain ⟨_, _, hlen, _, _⟩ := hs
  have := bufCap_lt s
  unfold State.endBit
  omega

theorem core_run_seek {s : State} {d : Int} {rest : List Word} (hs : s.Inv) (hp : s.phase = .idle)
    (hc : s.cmds = encode (.seek d) :: rest) (hd : deltaOk d = true) : ∃ t : State,
      (∀ k, Sys2Proof.core.run (k + 2) s = Sys2Proof.core.run k t) ∧ t.Inv ∧ SoughtFrom s d rest t := by
  have hexec := exec_seek d (s.accept (encode (.seek d)) 1)
  refine ⟨_, core_run_encoded hp hc hd hexec, inv_hostTake (exec_keeps_inv (inv_accept hs _ 1) hexec), ?_⟩
  have hfits : s.seekTarget d < 2 ^ 64 := (seekTarget_le s d).trans_lt (endBit_lt hs)
  exact {
    bitIndex := (congrArg Nat.cast (toNat_ofNat_of_lt hfits)).trans (seekTarget_eq s d)
    mem := rfl
    len := rfl
    phase := rfl
    cmds := by simp [hc] }

theorem core_run_seeksOf {sign : Int} (hsign : -1 ≤ sign ∧ sign ≤ 1) (k n : Nat) {s : State} {rest : List Word}
    (hn : n ≤ k * seekChunk) (hs : s.Inv) (hp : s.phase = .idle)
    (hc : s.cmds = (seeksOf seekChunk sign k n).map encode ++ rest) :
    ∃ t : State, Sys2Proof.core.run (2 * k) s = .next t ∧ SoughtFrom s (sign * n) rest t := by
  induction k generalizing n s with
  | zero =>
    obtain ⟨_, _, _, hidx, _⟩ := hs
    obtain rfl : n = 0 := by omega
    refine ⟨s, core_run_zero s, ?_, rfl, rfl, hp, hc⟩
    unfold clamp
    omega
  | succ k ih =>
    obtain ⟨t, hrun, ht, hseek⟩ := core_run_seek hs hp hc (deltaOk_seekChunk hsign n)
    obtain ⟨u, hu, hseek'⟩ := ih (n - seekChunk) (by rw [Nat.succ_mul] at hn; omega) ht hseek.phase hseek.cmds
    have hend : t.endBit = s.endBit := by rw [State.endBit, State.endBit, hseek.len]
    refine ⟨u, (hrun _).trans hu, ?_, hseek'.mem.trans hseek.mem, hseek'.len.trans hseek.len,
      hseek'.phase, hseek'.cmds⟩
    obtain ⟨_, _, _, hidx, _⟩ := hs
    have hsplit : min n seekChunk + (n - seekChunk) = n := by omega
    rw [hseek'.bitIndex, hseek.bitIndex, hend, clamp_seek_seek sign _ _ (by omega), hsplit]

/-! ### The statements -/

/-- Settles O1: the fields of the packed word are the command's, and each operand is recovered from its field. -/
theorem decodeOfEncodeIsTheCommand : Obligations.DecodeOfEncodeIsTheCommand := by
  intro i h
  exact decode_encode h

/-- Settles O2: a legal word's fields are its command's, and a word is determined by its fields. -/
theorem encodeOfDecodeIsTheWord : Obligations.EncodeOfDecodeIsTheWord := by
  intro c i h
  obtain ⟨hwf, hfields⟩ := fields_of_decode h
  exact ⟨hwf, encode_eq_iff.2 hfields⟩

/-- Settles O45: CLEAR empties the buffer, then by induction on the bytes each APPEND adds its own at the tail. -/
theorem attachLoadsTheInitialBuffer : Obligations.AttachLoadsTheInitialBuffer := by
  intro s bs rest hs hp hc hfit
  have hclear := exec_clear (s.accept (encode .clear) 1)
  have hinv := inv_hostTake (exec_keeps_inv (inv_accept hs (encode .clear) 1) hclear)
  obtain ⟨t, ht, happ⟩ := core_run_appends bs (rest := rest) hinv rfl (by simp [hc, attach]) (by simpa using hfit)
  refine ⟨t, (core_run_encoded hp hc rfl hclear _).trans ht, happ.bytes, ?_, happ.bitIndex,
    happ.phase, happ.cmds, ?_⟩
  · simpa using happ.len
  · rw [happ.taken]
    simp [Status.code, List.replicate_succ]

/-- Settles O46: the magnitudes of SEEKL sum to the whole delta, and seeks of one sign add up (`clamp_seek_seek`). -/
theorem seeklIsOneUnboundedSeek : Obligations.SeeklIsOneUnboundedSeek := by
  intro s d rest hs hp hc
  have hlength : (seekl d).length = seeklCount d := seeksOf_length ..
  refine ⟨⟨hlength, seeksOf_wf (sign_bounds d) _ _⟩, ?_⟩
  obtain ⟨t, ht, hseek⟩ := core_run_seeksOf (sign_bounds d) _ _ (natAbs_le_seeklCount d) hs hp hc
  refine ⟨t, by rw [hlength, ht], ?_, hseek.mem, hseek.len, hseek.phase, hseek.cmds⟩
  rw [hseek.bitIndex, Int.sign_mul_natAbs, clamp, State.endBit]
  push_cast
  rfl

/-- Settles O3: the decoder's conditions and operands, field by field, as numbers. -/
theorem decodeIsThePseudocode : Obligations.DecodeIsThePseudocode := by
  intro c
  dsimp only
  rw [← opField_toNat, ← rsvField_toNat, ← wm1Field_toNat, ← immField_toNat]
  simp only [decode, apply_ite Except.toOption, withZeroFields_toOption]
  simp only [Except.toOption, widthOf, deltaOf_eq, lowByte_eq, ofNat_toNat_imm, highBits_eq_zero_iff, ne_eq]
  simp only [← BitVec.toNat_inj]
  simp

/-- Settles O4: a matching row makes the word legal, and a legal word matches its command's row alone. -/
theorem wordMatchesOneRowOrIsIllegal : Obligations.WordMatchesOneRowOrIsIllegal := by
  intro c
  cases hd : decode c with
  | error e =>
    refine .inl ⟨List.filter_eq_nil_iff.2 fun row hrow hmatch => ?_, e, rfl⟩
    obtain ⟨i, hi⟩ := decode_ok_of_rowMatches hrow hmatch
    exact absurd (hd.symm.trans hi) nofun
  | ok i =>
    obtain ⟨row, hfilter, hname⟩ := filter_rowMatches_of_decode hd
    exact .inr ⟨row, i, hfilter, rfl, hname⟩

/-- Settles O5: the sum of the fields (`encode_toNat`), with each command's own. -/
theorem encodedWordIsItsFields : Obligations.EncodedWordIsItsFields := by
  refine ⟨fun ct h => ?_, fun ct v h => ?_, fun d _ => ?_, rfl, rfl, fun b => ?_⟩
  · rw [encode_toNat, Instr.wm1, toNat_ofNat_width h]
    simp [Instr.op, Instr.imm]
  · rw [encode_toNat, Instr.wm1, toNat_ofNat_width h]
    simp [Instr.op, Instr.imm]
  · have hop : (Instr.seek d).op.toNat = 3 := rfl
    have hwm1 : (Instr.seek d).wm1.toNat = 0 := rfl
    rw [encode_toNat, hop, hwm1, Instr.imm, BitVec.toNat_ofInt]
    omega
  · rw [encode_toNat, Instr.imm, BitVec.toNat_setWidth_of_le (by decide)]
    simp [Instr.op, Instr.wm1]

/-- Settles O7: line form by line form, the operand checks being the ranges of the syntax table. -/
theorem assemblyLineGivesItsWordOrNone : Obligations.AssemblyLineGivesItsWordOrNone :=
  ⟨read_words, write_words, seek_words, rfl, rfl, append_words⟩

/-- Settles O33: an illegal word answers data 0, and a command as its branch says. -/
theorem responseDataIsAValueOrZero : Obligations.ResponseDataIsAValueOrZero := by
  intro c s t h
  obtain ⟨e, hd, rfl⟩ | ⟨i, hd, hx⟩ := execute_cases h
  · rw [hd]
    exact ⟨nofun, nofun, fun _ => rfl⟩
  · rw [hd]
    refine ⟨?_, ?_, ?_⟩
    · rintro ct ⟨⟩ hst
      rw [exec_read_rspData hx hst, bitRead_toNat_ofNat _ _ (fields_of_decode hd).1]
    · rintro ⟨⟩
      cases (exec_index s).symm.trans hx
      exact ⟨rfl, rfl⟩
    · intro hi
      exact exec_rspData_zero hx (by simpa using hi)

end Sys2Proof.Machine
end

section
/-! SUPPORT. The family of 41_bit_field_reader.md: the value of a field, its byte-level datapath, and READ. -/

namespace Sys2Proof.Machine

/-! ### Adjacent fields (41_bit_field_reader.md R66) -/

theorem Memory.bitRead_succ (m : Memory) (p n : Nat) :
    Memory.bitRead m p (n + 1) = 2 * Memory.bitRead m p n + (Memory.bit m (p + n)).toNat := rfl

/-- Two adjacent fields are one field, the first the more significant. -/
theorem Memory.bitRead_add (m : Memory) (p a b : Nat) :
    Memory.bitRead m p (a + b) = Memory.bitRead m p a * 2 ^ b + Memory.bitRead m (p + a) b := by
  induction b with
  | zero => simp [Memory.bitRead]
  | succ b ih =>
    rw [← Nat.add_assoc, Memory.bitRead_succ, ih, Memory.bitRead_succ, pow_succ, Nat.add_assoc p a b]
    ring

theorem Memory.bitRead_or (m : Memory) (p a b : Nat) :
    Memory.bitRead m p a <<< b ||| Memory.bitRead m (p + a) b = Memory.bitRead m p (a + b) := by
  rw [← Nat.shiftLeft_add_eq_or_of_lt (Memory.bitRead_lt m _ b), Nat.shiftLeft_eq, Memory.bitRead_add]

theorem Memory.bitRead_shiftRight (m : Memory) (p a b : Nat) :
    Memory.bitRead m p (a + b) >>> b = Memory.bitRead m p a := by
  rw [← Memory.bitRead_or, Nat.shiftRight_or_distrib, Nat.shiftLeft_shiftRight, Nat.shiftRight_eq_div_pow,
    Nat.div_eq_of_lt (Memory.bitRead_lt m _ b), Nat.or_zero]

theorem Memory.bitRead_and_mask (m : Memory) (p a b : Nat) :
    Memory.bitRead m p (a + b) &&& mask b = Memory.bitRead m (p + a) b := by
  rw [mask, Nat.and_two_pow_sub_one_eq_mod, Memory.bitRead_add, Nat.mul_add_mod_self_right,
    Nat.mod_eq_of_lt (Memory.bitRead_lt m _ b)]

theorem Memory.bitRead_eq_sum (m : Memory) (p n : Nat) :
    Memory.bitRead m p n = ∑ i ∈ Finset.range n, (Memory.bit m (p + i)).toNat * 2 ^ (n - 1 - i) := by
  induction n with
  | zero => rfl
  | succ n ih =>
    have hdouble : ∀ i ∈ Finset.range n, 2 * ((Memory.bit m (p + i)).toNat * 2 ^ (n - 1 - i)) =
        (Memory.bit m (p + i)).toNat * 2 ^ (n + 1 - 1 - i) := by
      intro i hi
      have hexp : n + 1 - 1 - i = n - 1 - i + 1 := by
        have := Finset.mem_range.1 hi
        omega
      rw [hexp, pow_succ]
      ring
    rw [Memory.bitRead_succ, ih, Finset.mul_sum, Finset.sum_congr rfl hdouble, Finset.sum_range_succ]
    simp

/-! ### The byte-level datapath (41_bit_field_reader.md R67) -/

/-- A byte is the field of its eight bits. -/
theorem Memory.octet_eq_bitRead (m : Memory) (a : Nat) : Memory.octet m a = Memory.bitRead m (8 * a) 8 := by
  apply Nat.eq_of_testBit_eq
  intro j
  rw [Memory.testBit_bitRead, Memory.octet, BitVec.testBit_toNat]
  by_cases hj : j < 8
  · have hbyte : (8 * a + 8 - 1 - j) / 8 = a := by omega
    have hweight : bitWeight (8 * a + 8 - 1 - j) = j := by
      unfold bitWeight
      omega
    rw [Memory.bit, hbyte, hweight, decide_eq_true hj, Bool.true_and]
  · rw [BitVec.getLsbD_of_ge _ _ (Nat.not_lt.1 hj), decide_eq_false hj, Bool.false_and]

/-- The low bits of a byte are the field from offset `o` of the byte to its end. -/
theorem Memory.octet_and_mask (m : Memory) (a : Nat) {o : Nat} (ho : o ≤ 8) :
    Memory.octet m a &&& mask (8 - o) = Memory.bitRead m (8 * a + o) (8 - o) := by
  rw [Memory.octet_eq_bitRead, ← Memory.bitRead_and_mask, Nat.add_sub_cancel' ho]

/-- The high bits of a byte are the field of its first `r` bits. -/
theorem Memory.octet_shiftRight (m : Memory) (a : Nat) {r : Nat} (hr : r ≤ 8) :
    Memory.octet m a >>> (8 - r) = Memory.bitRead m (8 * a) r := by
  rw [Memory.octet_eq_bitRead, ← Memory.bitRead_shiftRight m _ r (8 - r), Nat.add_sub_cancel' hr]

/-- Gathering `n` bytes onto a field that ends where they begin extends the field by their bits. -/
theorem gatherBytes_bitRead (m : Memory) {p a j : Nat} (h : p + a = 8 * j) (n : Nat) :
    gatherBytes m j n (Memory.bitRead m p a) = Memory.bitRead m p (a + 8 * n) := by
  induction n generalizing a j with
  | zero => rfl
  | succ n ih =>
    have hnext : p + (a + 8) = 8 * (j + 1) := by omega
    rw [gatherBytes, Memory.octet_eq_bitRead, ← h, Memory.bitRead_or, ih hnext, Nat.mul_succ,
      Nat.add_right_comm, Nat.add_assoc]

theorem readDatapath_eq_bitRead (m : Memory) (k : Nat) {ct : Nat} (hct : 1 ≤ ct) :
    readDatapath m k ct = Memory.bitRead m k ct := by
  have hk : 8 * (k / 8) + k % 8 = k := Nat.div_add_mod k 8
  unfold readDatapath
  by_cases hbyte : k / 8 = (k + ct - 1) / 8
  · have hlow : 8 - k % 8 - ct = 8 - (k % 8 + ct) := Nat.sub_sub _ _ _
    simp only [if_pos hbyte]
    rw [hlow, Memory.octet_shiftRight m _ (by omega), Memory.bitRead_and_mask, hk]
  · simp only [if_neg hbyte]
    set last := (k + ct - 1) / 8 with hlast
    have hfirst : k + (8 - k % 8) = 8 * (k / 8 + 1) := by omega
    have hwhole : k + (8 - k % 8 + 8 * (last - k / 8 - 1)) = 8 * last := by omega
    have hwidth : 8 - k % 8 + 8 * (last - k / 8 - 1) + (k + ct - 8 * last) = ct := by omega
    rw [Memory.octet_and_mask m _ (by omega), hk, gatherBytes_bitRead m hfirst,
      Memory.octet_shiftRight m _ (by omega), ← hwhole, Memory.bitRead_or, hwhole, hwidth]

theorem field_spans_le_five_bytes (k : Nat) {ct : Nat} (h : ct ≤ 32) : (k + ct - 1) / 8 - k / 8 + 1 ≤ 5 := by
  omega

/-! ### READ (41_bit_field_reader.md R64, R65) -/

/-- The state in which a READ that does not overread ends. -/
def State.readDone (s : State) (ct : Nat) : State :=
  (s.setBitIndex (s.bitIndex.toNat + ct)).respond .ok
    (BitVec.ofNat 64 (Memory.bitRead s.mem s.bitIndex.toNat ct))

/-- Everything READ can do. -/
theorem exec_read_cases {ct : Nat} {s t : State} (h : exec (.read ct) s = .next t) :
    (s.Overreads ct ∧ t = s.raise .overread) ∨ (¬ s.Overreads ct ∧ t = s.readDone ct) := by
  by_cases ho : s.Overreads ct
  · cases (exec_read_of_overreads ho).symm.trans h
    exact .inl ⟨ho, rfl⟩
  · cases (exec_read_of_not_overreads ho).symm.trans h
    exact .inr ⟨ho, rfl⟩

theorem exec_read_eq_readDone {s : State} {ct : Nat} (h : ¬ s.Overreads ct) :
    exec (.read ct) s = .next (s.readDone ct) := exec_read_of_not_overreads h

theorem readDone_bitIndex_toNat {s : State} {ct : Nat} (hs : s.Inv) (h : ¬ s.Overreads ct) :
    (s.readDone ct).bitIndex.toNat = s.bitIndex.toNat + ct :=
  toNat_ofNat_of_lt ((Nat.not_lt.1 h).trans_lt (endBit_lt hs))

/-- SEEK by `-ct` from `ct` bits further on goes back to the bit index. -/
theorem seekTarget_readDone {s : State} {ct : Nat} (hs : s.Inv) (h : ¬ s.Overreads ct) :
    (s.readDone ct).seekTarget (-(ct : Int)) = s.bitIndex.toNat := by
  have htarget := seekTarget_eq (s.readDone ct) (-(ct : Int))
  have hend : (s.readDone ct).endBit = s.endBit := rfl
  rw [readDone_bitIndex_toNat hs h, hend, clamp] at htarget
  obtain ⟨_, _, _, hidx, _⟩ := hs
  omega

/-! ### Reading fields in order (41_bit_field_reader.md R70) -/

/-- The values of adjacent fields of widths `ws` from offset `p`. -/
def fieldValues (m : Memory) : Nat → List Nat → List Nat
  | _, [] => []
  | p, w :: ws => Memory.bitRead m p w :: fieldValues m (p + w) ws

theorem fieldValues_lt (m : Memory) (p : Nat) (ws : List Nat) :
    List.Forall₂ (fun w v => v < 2 ^ w) ws (fieldValues m p ws) := by
  induction ws generalizing p with
  | nil => exact .nil
  | cons w ws ih => exact .cons (Memory.bitRead_lt m p w) (ih _)

/-- Adjacent fields joined after the field before them are one field. -/
theorem joinFields_fieldValues (m : Memory) (p a : Nat) (ws : List Nat) :
    joinFields (Memory.bitRead m p a) ws (fieldValues m (p + a) ws) = Memory.bitRead m p (a + ws.sum) := by
  induction ws generalizing a with
  | nil => rfl
  | cons w ws ih =>
    rw [fieldValues, joinFields, ← Memory.bitRead_add, Nat.add_assoc p a w, ih, List.sum_cons, Nat.add_assoc]

/-- `t` is the idle state after fields of widths `ws` were read from `s`, each with the answer OK and its value, and
with the host's commands `rest` still to come. -/
structure ReadFrom (s : State) (ws : List Nat) (rest : List Word) (t : State) : Prop where
  bitIndex : t.bitIndex.toNat = s.bitIndex.toNat + ws.sum
  mem : t.mem = s.mem
  len : t.len = s.len
  phase : t.phase = .idle
  cmds : t.cmds = rest
  taken : t.taken = s.taken ++ (fieldValues s.mem s.bitIndex.toNat ws).map fun v => (0, BitVec.ofNat 64 v)

theorem core_run_read {s : State} {w : Nat} {rest : List Word} (hs : s.Inv) (hp : s.phase = .idle)
    (hc : s.cmds = encode (.read w) :: rest) (hw : widthOk w = true) (ho : ¬ s.Overreads w) : ∃ t : State,
      (∀ k, Sys2Proof.core.run (k + 2) s = Sys2Proof.core.run k t) ∧ t.Inv ∧ ReadFrom s [w] rest t := by
  have haccept := inv_accept hs (encode (.read w)) 1
  have hexec := exec_read_eq_readDone (s := s.accept (encode (.read w)) 1) ho
  refine ⟨_, core_run_encoded hp hc hw hexec, inv_hostTake (exec_keeps_inv haccept hexec), ?_⟩
  exact {
    bitIndex := readDone_bitIndex_toNat haccept ho
    mem := rfl
    len := rfl
    phase := rfl
    cmds := congrArg List.tail hc
    taken := rfl }

theorem ReadFrom.cons {s t u : State} {w : Nat} {ws : List Nat} {rest' rest : List Word}
    (h : ReadFrom s [w] rest' t) (h' : ReadFrom t ws rest u) : ReadFrom s (w :: ws) rest u where
  bitIndex := by
    rw [h'.bitIndex, h.bitIndex, List.sum_singleton, List.sum_cons, Nat.add_assoc]
  mem := h'.mem.trans h.mem
  len := h'.len.trans h.len
  phase := h'.phase
  cmds := h'.cmds
  taken := by simp [h'.taken, h.taken, h.mem, h.bitIndex, fieldValues]

theorem core_run_reads (ws : List Nat) {s : State} {rest : List Word} (hs : s.Inv) (hp : s.phase = .idle)
    (hws : ∀ w ∈ ws, 1 ≤ w ∧ w ≤ 32) (hfit : s.bitIndex.toNat + ws.sum ≤ s.endBit)
    (hc : s.cmds = (ws.map fun w => encode (.read w)) ++ rest) :
    ∃ t : State, Sys2Proof.core.run (2 * ws.length) s = .next t ∧ ReadFrom s ws rest t := by
  induction ws generalizing s with
  | nil => exact ⟨s, core_run_zero s, rfl, rfl, rfl, hp, hc, (List.append_nil _).symm⟩
  | cons w ws ih =>
    obtain ⟨hw, hws⟩ := List.forall_mem_cons.1 hws
    rw [List.sum_cons] at hfit
    have ho : ¬ s.Overreads w := by
      rw [State.Overreads]
      omega
    obtain ⟨t, hrun, ht, hread⟩ := core_run_read hs hp hc (widthOk_iff.2 hw) ho
    have hidx : t.bitIndex.toNat = s.bitIndex.toNat + w := hread.bitIndex
    have hend : t.endBit = s.endBit := by rw [State.endBit, State.endBit, hread.len]
    obtain ⟨u, hu, hread'⟩ := ih ht hread.phase hws (by omega) hread.cmds
    exact ⟨u, (hrun _).trans hu, hread.cons hread'⟩

/-! ### The statements -/

/-- Settles O14: the bytes of the field are adjacent fields, joined first to last; the bound is arithmetic. -/
theorem readDatapathComputesTheField : Obligations.ReadDatapathComputesTheField := by
  intro m k ct hct
  exact ⟨readDatapath_eq_bitRead m k hct, field_spans_le_five_bytes k⟩

/-- Settles O47, by induction on the widths: each READ answers the next of the adjacent fields. -/
theorem readingFieldsInOrderReproducesTheBits : Obligations.ReadingFieldsInOrderReproducesTheBits := by
  intro s ws rest hs hp h0 hws hfit hc
  have hzero : s.bitIndex.toNat = 0 := by rw [h0]; rfl
  obtain ⟨t, ht, hread⟩ := core_run_reads ws hs hp hws (by rwa [hzero, Nat.zero_add]) hc
  refine ⟨t, fieldValues s.mem 0 ws, ht, ?_, fieldValues_lt _ _ _, ?_, ?_⟩
  · rw [hread.taken, hzero]
  · simpa [Memory.bitRead] using joinFields_fieldValues s.mem 0 0 ws
  · rw [hread.bitIndex, hzero, Nat.zero_add]

/-- Settles O11: the two branches of READ, the exact sum and the value fitting their 64 bits. -/
theorem readReturnsTheFieldOrOverreads : Obligations.ReadReturnsTheFieldOrOverreads := by
  intro s ct hwf hs
  refine ⟨exec_read_of_overreads, fun hfit => ?_⟩
  have ho : ¬ s.Overreads ct := Nat.not_lt.2 hfit
  refine ⟨s.readDone ct, exec_read_eq_readDone ho, rfl, readDone_bitIndex_toNat hs ho, ?_⟩
  rw [← Memory.bitRead_eq_sum]
  exact bitRead_toNat_ofNat s.mem _ hwf

/-- Settles O13, by induction on the width: one bit more doubles the weights. -/
theorem fieldValueIsTheWeightedSumOfItsBits : Obligations.FieldValueIsTheWeightedSumOfItsBits := by
  intro m p n
  exact ⟨Memory.bitRead_eq_sum m p n, Memory.bitRead_lt m p n⟩

/-- Settles O15: the READ that answers OK has advanced by exactly `ct`, and SEEK's target is where it began. -/
theorem seekBackUndoesARead : Obligations.SeekBackUndoesARead := by
  intro s t ct _ hs h hok
  obtain ⟨_, rfl⟩ | ⟨ho, rfl⟩ := exec_read_cases h
  · exact absurd hok (show Status.overread.code ≠ 0 by decide)
  · refine ⟨_, exec_seek _ _, ⟨rfl, rfl, ?_⟩, rfl⟩
    rw [State.respond_bitIndex, State.setBitIndex_bitIndex, seekTarget_readDone hs ho, BitVec.ofNat_toNat,
      BitVec.setWidth_eq]

/-- Settles O12, from the two outcomes of READ. -/
theorem overreadExactlyWhenTooFewBitsRemain : Obligations.OverreadExactlyWhenTooFewBitsRemain := by
  intro s t ct h
  obtain ⟨ho, rfl⟩ | ⟨ho, rfl⟩ := exec_read_cases h
  · exact ⟨⟨fun _ => ho, fun _ => rfl⟩, fun _ => ⟨⟨rfl, rfl, rfl⟩, rfl⟩, .inr rfl⟩
  · have hok : (s.readDone ct).rspStatus ≠ 1 := show Status.ok.code ≠ 1 by decide
    exact ⟨⟨fun h1 => absurd h1 hok, fun h1 => absurd h1 ho⟩, fun h1 => absurd h1 hok, .inl rfl⟩

end Sys2Proof.Machine
end

section
/-! SUPPORT. The family of 42_bit_field_writer.md: writing a field, its byte-level datapath, and WRITE. -/

namespace Sys2Proof.Machine

/-! ### Adjacent fields (42_bit_field_writer.md R74) -/

theorem Memory.bitWrite_succ (m : Memory) (p n v : Nat) :
    Memory.bitWrite m p (n + 1) v = Memory.bitWrite (Memory.setBit m p (v.testBit n)) (p + 1) n v := rfl

/-- Writing a field is writing its high part, then its low part behind it. -/
theorem Memory.bitWrite_add (m : Memory) (p a b v : Nat) :
    Memory.bitWrite m p (a + b) v = Memory.bitWrite (Memory.bitWrite m p a (v >>> b)) (p + a) b v := by
  induction a generalizing m p with
  | zero => rw [Nat.zero_add]; rfl
  | succ a ih =>
    rw [Nat.add_right_comm, Memory.bitWrite_succ, ih, Memory.bitWrite_succ, Nat.testBit_shiftRight,
      Nat.add_comm b a, Nat.add_right_comm p 1 a, Nat.add_assoc p a 1]

/-- Only the low `n` bits of the value are written. -/
theorem Memory.bitWrite_and_mask (m : Memory) (p n v : Nat) :
    Memory.bitWrite m p n (v &&& mask n) = Memory.bitWrite m p n v := by
  suffices h : ∀ w, n ≤ w → Memory.bitWrite m p n (v &&& mask w) = Memory.bitWrite m p n v from h n le_rfl
  intro w hw
  induction n generalizing m p with
  | zero => rfl
  | succ n ih =>
    have hbit : (v &&& mask w).testBit n = v.testBit n := by
      rw [mask, Nat.and_two_pow_sub_one_eq_mod, Nat.testBit_mod_two_pow, decide_eq_true (Nat.lt_of_succ_le hw),
        Bool.true_and]
    rw [Memory.bitWrite_succ, Memory.bitWrite_succ, hbit, ih _ _ (Nat.le_of_succ_le hw)]

/-- A field written and read back is the low bits of the value. -/
theorem Memory.bitRead_bitWrite {m : Memory} (h : Memory.wf m = true) (p n v : Nat) :
    Memory.bitRead (Memory.bitWrite m p n v) p n = v % 2 ^ n := by
  apply Nat.eq_of_testBit_eq
  intro j
  rw [Memory.testBit_bitRead, Nat.testBit_mod_two_pow, Memory.bit_bitWrite h]
  by_cases hj : j < n
  · have hidx : p + n - 1 - (p + n - 1 - j) = j := by omega
    rw [if_pos (by omega), hidx]
  · rw [decide_eq_false hj, Bool.false_and, Bool.false_and]

/-! ### One byte of a field (42_bit_field_writer.md R77) -/

/-- A byte write that replaces the `n` bits from offset `o` of the byte is a field write. -/
theorem Memory.write_eq_bitWrite {m : Memory} (h : Memory.wf m = true) {a o n v : Nat} {x : Byte} (hn : o + n ≤ 8)
    (hx : ∀ i < 8, x.getLsbD i =
      if 8 - o - n ≤ i ∧ i < 8 - o then v.testBit (i - (8 - o - n)) else (Memory.read m a).getLsbD i) :
    Memory.write m a x = Memory.bitWrite m (8 * a + o) n v := by
  refine Memory.ext_bits (Memory.wf_write h _ _) (Memory.wf_bitWrite h _ _ _) fun p => ?_
  rw [Memory.bit_bitWrite h, Memory.bit, Memory.read_write h]
  by_cases hp : p / 8 = a
  · subst hp
    rw [if_pos rfl, hx _ (bitWeight_lt p), ← Memory.bit, bitWeight]
    by_cases hin : 8 * (p / 8) + o ≤ p ∧ p < 8 * (p / 8) + o + n
    · have hidx : 7 - p % 8 - (8 - o - n) = 8 * (p / 8) + o + n - 1 - p := by omega
      rw [if_pos (by omega), if_pos hin, hidx]
    · rw [if_neg (by omega), if_neg hin]
  · rw [if_neg hp, if_neg (by omega), Memory.bit]

theorem clearThenSet_getLsbD (b : Byte) (m8 field : Nat) {i : Nat} (hi : i < 8) :
    (clearThenSet b m8 field).getLsbD i = if m8.testBit i then field.testBit i else b.getLsbD i := by
  rw [clearThenSet, BitVec.getLsbD_or, BitVec.getLsbD_and, BitVec.getLsbD_not, BitVec.getLsbD_ofNat,
    BitVec.getLsbD_ofNat, Nat.testBit_and, decide_eq_true hi]
  cases m8.testBit i <;> simp

theorem testBit_mask_shiftLeft (n sh i : Nat) : (mask n <<< sh).testBit i = decide (sh ≤ i ∧ i < sh + n) := by
  rw [mask, Nat.testBit_shiftLeft, Nat.testBit_two_pow_sub_one, ← Bool.decide_and]
  exact decide_eq_decide.2 (by omega)

/-- Clear-then-set of the `n` bits from offset `o` of a byte is a field write. -/
theorem Memory.write_clearThenSet {m : Memory} (h : Memory.wf m = true) (a v : Nat) {o n sh : Nat}
    (hsh : o + n + sh = 8) :
    Memory.write m a (clearThenSet (Memory.read m a) (mask n <<< sh) (v <<< sh)) =
      Memory.bitWrite m (8 * a + o) n v := by
  refine Memory.write_eq_bitWrite h (by omega) fun i hi => ?_
  obtain rfl : sh = 8 - o - n := by omega
  have hend : 8 - o - n + n = 8 - o := by omega
  rw [clearThenSet_getLsbD _ _ _ hi, testBit_mask_shiftLeft, hend]
  by_cases hin : 8 - o - n ≤ i ∧ i < 8 - o
  · rw [if_pos (decide_eq_true hin), if_pos hin, Nat.testBit_shiftLeft, decide_eq_true hin.1, Bool.true_and]
  · rw [if_neg (by simpa using hin), if_neg hin]

/-- A whole byte is a field of eight bits. -/
theorem Memory.write_ofNat {m : Memory} (h : Memory.wf m = true) (a v : Nat) :
    Memory.write m a (BitVec.ofNat 8 v) = Memory.bitWrite m (8 * a) 8 v := by
  refine Memory.write_eq_bitWrite (o := 0) h le_rfl fun i hi => ?_
  rw [if_pos (by omega), BitVec.getLsbD_ofNat, decide_eq_true hi, Bool.true_and]
  rfl

/-! ### The byte-level datapath (42_bit_field_writer.md R77 to R79) -/

/-- The first byte of a field that straddles takes the value's high bits. -/
theorem firstByte_bitWrite {m : Memory} (h : Memory.wf m = true) (k v : Nat) :
    Memory.write m (k / 8) (clearThenSet (Memory.read m (k / 8)) (mask (8 - k % 8)) v) =
      Memory.bitWrite m k (8 - k % 8) v := by
  have hwrite := Memory.write_clearThenSet h (k / 8) v (o := k % 8) (n := 8 - k % 8) (sh := 0) (by omega)
  rwa [Nat.shiftLeft_zero, Nat.shiftLeft_zero, Nat.div_add_mod] at hwrite

/-- Scattering `n` bytes writes the field of their bits. -/
theorem scatterBytes_bitWrite {m : Memory} (h : Memory.wf m = true) (byteOffset v : Nat) {rem j n : Nat}
    (hn : 8 * (j + n) ≤ rem) :
    scatterBytes m byteOffset rem v j n =
      Memory.bitWrite m (8 * (byteOffset + (j + 1))) (8 * n) (v >>> (rem - 8 * (j + n))) := by
  induction n generalizing m j with
  | zero => rfl
  | succ n ih =>
    have hwidth : 8 * (n + 1) = 8 + 8 * n := by omega
    have hshift : rem - 8 * (j + (n + 1)) + 8 * n = rem - 8 * (j + 1) := by omega
    have hlast : j + 1 + n = j + (n + 1) := by omega
    have hnext : 8 * (byteOffset + (j + 1 + 1)) = 8 * (byteOffset + (j + 1)) + 8 := by omega
    rw [scatterBytes, Memory.write_ofNat h, ih (Memory.wf_bitWrite h _ _ _) (by omega), hwidth,
      Memory.bitWrite_add, ← Nat.shiftRight_add, hshift, hlast, hnext]

/-- The final partial byte takes the value's low bits. -/
theorem finalByte_bitWrite {m : Memory} (h : Memory.wf m = true) (byteOffset rem v : Nat) :
    finalByte m byteOffset rem v = Memory.bitWrite m (8 * (byteOffset + rem / 8 + 1)) (rem % 8) v := by
  unfold finalByte
  by_cases h0 : rem % 8 = 0
  · simp only [h0, if_true]
    rfl
  · simp only [if_neg h0]
    rw [Memory.write_clearThenSet h _ _ (o := 0) (by omega), Nat.add_zero, Memory.bitWrite_and_mask]

theorem writeDatapath_eq_bitWrite {m : Memory} (h : Memory.wf m = true) (k ct v : Nat) :
    writeDatapath m k ct v = Memory.bitWrite m k ct v := by
  unfold writeDatapath
  by_cases hct : ct ≤ 8 - k % 8
  · simp only [if_pos hct]
    rw [Memory.write_clearThenSet h _ _ (o := k % 8) (by omega), Nat.div_add_mod]
  · simp only [if_neg hct]
    set rem := ct - (8 - k % 8) with hrem
    have hfirst : Memory.wf (Memory.bitWrite m k (8 - k % 8) (v >>> rem)) = true := Memory.wf_bitWrite h _ _ _
    have hwidth : 8 - k % 8 + rem = ct := by omega
    have hlow : 8 * (rem / 8) + rem % 8 = rem := Nat.div_add_mod rem 8
    have hsecond : 8 * (k / 8 + (0 + 1)) = k + (8 - k % 8) := by omega
    have hlast : 8 * (k / 8 + rem / 8 + 1) = k + (8 - k % 8) + 8 * (rem / 8) := by omega
    have hshift : rem - 8 * (0 + rem / 8) = rem % 8 := by omega
    rw [firstByte_bitWrite h, scatterBytes_bitWrite hfirst _ _ (by omega),
      finalByte_bitWrite (Memory.wf_bitWrite hfirst _ _ _), hsecond, hlast, hshift, ← Memory.bitWrite_add, hlow,
      ← Memory.bitWrite_add, hwidth]

/-! ### WRITE (42_bit_field_writer.md R75, R76) -/

/-- The state in which a WRITE within the capacity ends. -/
def State.writeDone (s : State) (ct : Nat) (value : BitVec 32) : State :=
  (((s.grow (s.newLen ct)).putField ct (fieldValue ct value)).setBitIndex (s.bitIndex.toNat + ct)).respond .ok 0

/-- Everything WRITE can do. -/
theorem exec_write_cases {ct : Nat} {v : BitVec 32} {s t : State} (h : exec (.write ct v) s = .next t) :
    (s.ExceedsCap (s.newLen ct) ∧ t = s.raise .capacity) ∨
    (¬ s.ExceedsCap (s.newLen ct) ∧ t = s.writeDone ct v) := by
  by_cases hx : s.ExceedsCap (s.newLen ct)
  · cases (exec_write_of_exceeds v hx).symm.trans h
    exact .inl ⟨hx, rfl⟩
  · cases (exec_write_of_fits v hx).symm.trans h
    exact .inr ⟨hx, rfl⟩

/-- A WRITE that answers OK fitted. -/
theorem exec_write_ok {ct : Nat} {v : BitVec 32} {s t : State} (h : exec (.write ct v) s = .next t)
    (hok : t.rspStatus = 0) : ¬ s.ExceedsCap (s.newLen ct) ∧ t = s.writeDone ct v := by
  obtain ⟨_, rfl⟩ | hdone := exec_write_cases h
  · exact absurd hok (show Status.capacity.code ≠ 0 by decide)
  · exact hdone

theorem writeDone_len_toNat {s : State} {ct : Nat} (hx : ¬ s.ExceedsCap (s.newLen ct)) (v : BitVec 32) :
    (s.writeDone ct v).len.toNat = s.newLen ct := toNat_ofNat_of_fits hx

theorem writeDone_bitIndex_toNat {s : State} {ct : Nat} (hx : ¬ s.ExceedsCap (s.newLen ct)) (v : BitVec 32) :
    (s.writeDone ct v).bitIndex.toNat = s.bitIndex.toNat + ct := by
  have hfield := field_le_newLen s ct
  have hcap := bufCap_lt s
  exact toNat_ofNat_of_lt (by omega)

/-- Growth keeps every bit, and the new ones read as zero. -/
theorem grow_bitAt {s : State} {n : Nat} (hn : s.len.toNat ≤ n) (hx : ¬ s.ExceedsCap n) (p : Nat) :
    (s.grow n).bitAt p = s.bitAt p := by
  have hcap := bufCap_lt s
  rw [State.bitAt, State.bitAt, grow_byteAt s hn (by omega)]

/-- A field within the buffer has its bits set, most significant first, and every other bit kept. -/
theorem putField_bitAt {s : State} (hwf : Memory.wf s.mem = true) {ct : Nat}
    (hfield : s.bitIndex.toNat + ct ≤ s.endBit) (v p : Nat) :
    (s.putField ct v).bitAt p =
      if s.bitIndex.toNat ≤ p ∧ p < s.bitIndex.toNat + ct then v.testBit (s.bitIndex.toNat + ct - 1 - p)
      else s.bitAt p := by
  rw [State.endBit] at hfield
  rw [State.bitAt_eq, State.bitAt_eq, State.putField_len, State.putField_mem, Memory.bit_bitWrite hwf]
  by_cases hp : s.bitIndex.toNat ≤ p ∧ p < s.bitIndex.toNat + ct
  · rw [if_pos hp, if_pos hp, if_pos (by omega)]
  · rw [if_neg hp, if_neg hp]

theorem testBit_fieldValue (ct : Nat) (v : BitVec 32) {j : Nat} (hj : j < ct) :
    (fieldValue ct v).testBit j = v.getLsbD j := by
  rw [fieldValue, Nat.testBit_mod_two_pow, decide_eq_true hj, Bool.true_and, BitVec.testBit_toNat]

/-- The buffer after a WRITE that fits, bit by bit (42_bit_field_writer.md R73, R74). -/
theorem writeDone_bitAt {s : State} (hs : s.Inv) {ct : Nat} (hx : ¬ s.ExceedsCap (s.newLen ct)) (v : BitVec 32)
    (p : Nat) : (s.writeDone ct v).bitAt p =
      if s.bitIndex.toNat ≤ p ∧ p < s.bitIndex.toNat + ct then v.getLsbD (ct - 1 - (p - s.bitIndex.toNat))
      else s.bitAt p := by
  obtain ⟨hwf, _, _, _, _⟩ := inv_grow hs (len_le_newLen s ct) hx
  have hfield : (s.grow (s.newLen ct)).bitIndex.toNat + ct ≤ (s.grow (s.newLen ct)).endBit := by
    rw [State.endBit, State.grow_len, toNat_ofNat_of_fits hx]
    exact field_le_newLen s ct
  have hput : (s.writeDone ct v).bitAt p = _ := putField_bitAt hwf hfield (fieldValue ct v) p
  rw [hput, State.grow_bitIndex, grow_bitAt (len_le_newLen s ct) hx]
  by_cases hp : s.bitIndex.toNat ≤ p ∧ p < s.bitIndex.toNat + ct
  · have hidx : s.bitIndex.toNat + ct - 1 - p = ct - 1 - (p - s.bitIndex.toNat) := by omega
    rw [if_pos hp, if_pos hp, hidx, testBit_fieldValue ct v (by omega)]
  · rw [if_neg hp, if_neg hp]

theorem State.bitAt_of_ge {s : State} {p : Nat} (h : 8 * s.len.toNat ≤ p) : s.bitAt p = false := by
  rw [State.bitAt_eq, if_neg (Nat.not_lt.2 h)]

/-- A WRITE that fits keeps every byte that holds no bit of the field. -/
theorem writeDone_byteAt {s : State} (hs : s.Inv) {ct : Nat} (hx : ¬ s.ExceedsCap (s.newLen ct)) (v : BitVec 32)
    {a : Nat} (ha : 8 * a + 8 ≤ s.bitIndex.toNat ∨ s.bitIndex.toNat + ct ≤ 8 * a) :
    (s.writeDone ct v).byteAt a = s.byteAt a := by
  refine State.byteAt_eq_of_bitAt fun j hj => ?_
  rw [writeDone_bitAt hs hx, if_neg (by omega)]

/-- The field a WRITE left in the buffer has the value's low bits. -/
theorem bitRead_writeDone {s : State} (hs : s.Inv) (ct : Nat) (v : BitVec 32) :
    Memory.bitRead (s.writeDone ct v).mem s.bitIndex.toNat ct = v.toNat % 2 ^ ct := by
  obtain ⟨hwf, _, _, _, _⟩ := hs
  have hread := Memory.bitRead_bitWrite (Memory.wf_zeroFrom hwf s.len.toNat) s.bitIndex.toNat ct (fieldValue ct v)
  rwa [fieldValue, Nat.mod_mod] at hread

/-! ### The statements -/

/-- Settles O19: each byte of the datapath writes its part of the field, and adjacent parts are one field. -/
theorem writeDatapathComputesTheField : Obligations.WriteDatapathComputesTheField := by
  intro m k ct v hwf _ _
  exact writeDatapath_eq_bitWrite hwf k ct v

/-- Settles O16: the two branches of WRITE, the second bit by bit (`writeDone_bitAt`). -/
theorem writeGrowsAndPutsTheField : Obligations.WriteGrowsAndPutsTheField := by
  intro s ct v _ hs
  refine ⟨exec_write_of_exceeds v, fun hfit => ?_⟩
  have hx : ¬ s.ExceedsCap (s.newLen ct) := Nat.not_lt.2 hfit
  exact ⟨s.writeDone ct v, exec_write_of_fits v hx, ⟨rfl, rfl, rfl, rfl⟩, rfl, rfl, rfl,
    writeDone_len_toNat hx v, writeDone_bitIndex_toNat hx v, writeDone_bitAt hs hx v⟩

/-- Settles O18: the new length is `newLen`, the bit index lay within the old buffer, and a bit past both the old end
and the field is an old one. -/
theorem writeGrowthIsMinimal : Obligations.WriteGrowthIsMinimal := by
  intro s t ct v hwf hs h hok
  obtain ⟨hx, rfl⟩ := exec_write_ok h hok
  have hct := widthOk_iff.1 hwf
  have hidx : s.bitIndex.toNat ≤ 8 * s.len.toNat := by
    obtain ⟨_, _, _, hidx, _⟩ := hs
    exact hidx
  rw [writeDone_len_toNat hx, State.newLen, ceil8]
  refine ⟨by omega, by omega, by omega, fun p hend hfield => ?_⟩
  rw [writeDone_bitAt hs hx, if_neg (by omega), State.bitAt_of_ge hend]

/-- Settles O20: the field lies within the grown buffer, so the READ does not overread, and it reads what the WRITE
put (`bitRead_writeDone`). -/
theorem readBackGivesTheMaskedValue : Obligations.ReadBackGivesTheMaskedValue := by
  intro s t u ct v hwf hs h hok hmem hlen hidx
  obtain ⟨hx, rfl⟩ := exec_write_ok h hok
  have ho : ¬ u.Overreads ct := by
    rw [State.Overreads, State.endBit, hlen, hidx, writeDone_len_toNat hx]
    exact Nat.not_lt.2 (field_le_newLen s ct)
  have hdata : (u.readDone ct).rspData.toNat = Memory.bitRead u.mem u.bitIndex.toNat ct :=
    bitRead_toNat_ofNat _ _ hwf
  refine ⟨u.readDone ct, exec_read_eq_readDone ho, rfl, ?_, ?_⟩
  · rw [hdata, hmem, hidx, bitRead_writeDone hs]
  · exact congrArg (fun k : Word => BitVec.ofNat 64 (k.toNat + ct)) hidx

/-- Settles O27: a byte outside the stored ones holds no bit of WRITE's field and is not APPEND's; an error stores
nothing. -/
theorem writeAndAppendStoreOnlyWhereTheySay : Obligations.WriteAndAppendStoreOnlyWhereTheySay := by
  constructor
  · intro s t ct v hwf hs h
    refine ⟨exec_sameRest h, exec_phase h, fun a ha => ?_⟩
    obtain ⟨_, rfl⟩ | ⟨hx, rfl⟩ := exec_write_cases h
    · exact byteAt_congr rfl rfl a
    · have hct := widthOk_iff.1 hwf
      exact writeDone_byteAt hs hx v (by omega)
  · intro s t b hs h
    refine ⟨exec_sameRest h, exec_phase h, exec_append_keeps_bitIndex h, fun a ha => ?_⟩
    by_cases hx : s.ExceedsCap (s.len.toNat + 1)
    · cases (exec_append_of_exceeds b hx).symm.trans h
      exact byteAt_congr rfl rfl a
    · cases (exec_append_of_fits b hx).symm.trans h
      obtain ⟨hwf, _, _, _, _⟩ := hs
      have hcap := bufCap_lt s
      exact (appendByte_byteAt s hwf (by omega) b a).trans (if_neg ha)

/-- Settles O17, from the two outcomes of WRITE. -/
theorem capacityExactlyWhenAWriteOutgrowsTheBuffer : Obligations.CapacityExactlyWhenAWriteOutgrowsTheBuffer := by
  intro s t ct v h
  obtain ⟨hx, rfl⟩ | ⟨hx, rfl⟩ := exec_write_cases h
  · exact ⟨⟨fun _ => hx, fun _ => rfl⟩, fun _ => ⟨⟨rfl, rfl, rfl⟩, rfl⟩⟩
  · have hok : (s.writeDone ct v).rspStatus ≠ 3 := show Status.ok.code ≠ 3 by decide
    exact ⟨⟨fun h3 => absurd h3 hok, fun h3 => absurd h3 hx⟩, fun h3 => absurd h3 hok⟩

end Sys2Proof.Machine
end

section
/-! SUPPORT. The family of 43_bit_cursor_engine.md: the ports, the clock, and SEEK, INDEX, CLEAR and APPEND. -/

namespace Sys2Proof.Machine

/-! ### A command in flight (43_bit_cursor_engine.md R92, R93) -/

/-- `t` is a state in which the command word `c`, accepted in `s`, still waits `n` edges before its completing one:
nothing a command reads has moved since `s`. -/
structure InFlight (s : State) (c : Word) (n : Nat) (t : State) : Prop where
  arch : s.SameArch t
  bufCap : s.bufCap = t.bufCap
  phase : t.phase = .busy c n

theorem inFlight_accept (s : State) (c : Word) (lat : Nat) : InFlight s c (lat - 1) (s.accept c lat) :=
  ⟨⟨rfl, rfl, rfl⟩, rfl, rfl⟩

theorem execute_phase {c : Word} {s t : State} (h : execute c s = .next t) : t.phase = .resp := by
  obtain ⟨_, _, rfl⟩ | ⟨_, _, hi⟩ := execute_cases h
  · rfl
  · exact exec_phase hi

/-- Completing a command gives one result from every state in which it is in flight (43_bit_cursor_engine.md R98). -/
theorem InFlight.execute_congr {s t t' u u' : State} {c d : Word} {n n' : Nat} (ht : InFlight s c n t)
    (ht' : InFlight s c n' t') (h : execute d t = .next u) (h' : execute d t' = .next u') :
    u.SameArch u' ∧ u.SameRsp u' :=
  resultsIgnoreTheInterfaceState d t t' u u' (sameArch_of_keep_arch ht.arch ⟨rfl, rfl, rfl⟩ ht'.arch)
    (ht.bufCap.symm.trans ht'.bufCap) h h'

/-! ### Clock edges without reset (43_bit_cursor_engine.md R92, R93, R95) -/

theorem edge_of_accepting {s : State} {p : PortIn} (lat : Nat) (hr : p.rst = false) (hp : s.phase = .idle)
    (hv : p.cmdValid = true) : edge lat p s = .next (s.accept p.cmdData lat) := by
  simp [edge, hr, hp, hv]

theorem edge_of_completing {s : State} {p : PortIn} {c : Word} (lat : Nat) (hr : p.rst = false)
    (hp : s.phase = .busy c 0) : edge lat p s = execute c s := by
  simp [edge, hr, hp]

/-- An edge before the completing one only counts down. -/
theorem InFlight.edge_of_waiting {s t : State} {p : PortIn} {c : Word} {n : Nat} (ht : InFlight s c (n + 1) t) (lat : Nat)
    (hr : p.rst = false) : ∃ u, edge lat p t = .next u ∧ InFlight s c n u := by
  refine ⟨{ t.freeRsp with phase := .busy c n }, ?_, ht.arch, ht.bufCap, rfl⟩
  simp [edge, hr, ht.phase]

theorem edges_cons {lat : Nat} {p : PortIn} {s t : State} (h : edge lat p s = .next t) (ps : List (Nat × PortIn)) :
    edges ((lat, p) :: ps) s = edges ps t := by
  simp only [edges, h]

/-- Fewer edges than the command waits for leave it in flight. -/
theorem InFlight.edges_of_waiting {s t : State} {c : Word} {n : Nat} {ps : List (Nat × PortIn)}
    (ht : InFlight s c n t) (hrst : ∀ q ∈ ps, q.2.rst = false) (hlen : ps.length ≤ n) :
    ∃ u, edges ps t = .next u ∧ InFlight s c (n - ps.length) u := by
  induction ps generalizing n t with
  | nil => exact ⟨t, rfl, ht⟩
  | cons q ps ih =>
    obtain ⟨hq, hps⟩ := List.forall_mem_cons.1 hrst
    cases n with
    | zero => exact absurd hlen (Nat.not_succ_le_zero _)
    | succ n =>
      obtain ⟨u, hu, hflight⟩ := ht.edge_of_waiting q.1 hq
      rw [edges_cons hu, List.length_cons, Nat.add_sub_add_right]
      exact ih hflight hps (Nat.le_of_succ_le_succ hlen)

/-- The edge after all those the command waits for completes it. -/
theorem InFlight.edges_of_completing {s t : State} {c : Word} {n : Nat} {ps : List (Nat × PortIn)}
    (ht : InFlight s c n t) (hrst : ∀ q ∈ ps, q.2.rst = false) (hlen : ps.length = n + 1) :
    ∃ v u, InFlight s c 0 v ∧ execute c v = .next u ∧ edges ps t = .next u := by
  induction ps generalizing n t with
  | nil => exact absurd hlen (Nat.succ_ne_zero n).symm
  | cons q ps ih =>
    obtain ⟨hq, hps⟩ := List.forall_mem_cons.1 hrst
    have hlen' : ps.length = n := Nat.succ.inj hlen
    cases n with
    | zero =>
      obtain rfl := List.length_eq_zero_iff.1 hlen'
      obtain ⟨u, hu⟩ := execute_total c t
      exact ⟨t, u, ht, hu, edges_cons ((edge_of_completing q.1 hq ht.phase).trans hu) []⟩
    | succ n =>
      obtain ⟨t', ht', hflight⟩ := ht.edge_of_waiting q.1 hq
      rw [edges_cons ht']
      exact ih hflight hps hlen'

/-! ### SEEK (43_bit_cursor_engine.md R84, R85) -/

theorem toNat_ofNat_seekTarget {s : State} (hs : s.Inv) (d : Int) :
    (BitVec.ofNat 64 (s.seekTarget d)).toNat = s.seekTarget d :=
  toNat_ofNat_of_lt ((seekTarget_le s d).trans_lt (endBit_lt hs))

theorem seekTarget_eq_zero {s : State} {d : Int} (h : (s.bitIndex.toNat : Int) < -d) : s.seekTarget d = 0 := by
  have htarget := seekTarget_eq s d
  unfold clamp at htarget
  omega

/-! ### Samples of the outputs (43_bit_cursor_engine.md R96, R97) -/

theorem sample_of_busy {α : Type} {s : State} {c : Word} {n : Nat} (hp : s.phase = .busy c n) (x : α) :
    s.sample x = none := by
  simp [State.sample, hp, Phase.isBusy]

theorem sample_of_idle_or_resp {α : Type} {s : State} (hp : s.phase = .idle ∨ s.phase = .resp) (x : α) :
    s.sample x = some x := by
  obtain hp | hp := hp <;> simp [State.sample, hp, Phase.isBusy]

/-! ### The statements -/

/-- Settles O44: the command stays in flight until its completing edge, by induction on the edges, and what completes
there is what the step completes. -/
theorem clockedBlockRefinesTheStep : Obligations.ClockedBlockRefinesTheStep := by
  intro s c cs lat p ps hidle hcmds hlat hr hvalid hdata hrst
  have haccept := edge_of_accepting lat hr hidle hvalid
  rw [hdata] at haccept
  rw [edges_cons haccept]
  have hflight := inFlight_accept s c lat
  constructor
  · intro hlen
    obtain ⟨v, u, hv, hu, hedges⟩ := hflight.edges_of_completing hrst (by omega)
    obtain ⟨t, ht⟩ := execute_total c (s.accept c 1)
    obtain ⟨harch, hrsp⟩ := (inFlight_accept s c 1).execute_congr hv ht hu
    exact ⟨t, u, (step_of_presenting hidle hcmds).trans ht, hedges, execute_phase ht, harch, hrsp⟩
  · intro hlen
    obtain ⟨u, hu, hwaits⟩ := hflight.edges_of_waiting hrst (by omega)
    exact ⟨u, hu, hwaits.arch, hwaits.phase⟩

/-- Settles O21: the target is the clamped sum, and it fits 64 bits. -/
theorem seekClampsTheExactSum : Obligations.SeekClampsTheExactSum := by
  intro s d _ hs
  refine ⟨_, exec_seek d s, rfl, ?_⟩
  rw [State.respond_bitIndex, State.setBitIndex_bitIndex, toNat_ofNat_seekTarget hs, seekTarget_eq, clamp,
    State.endBit, Nat.cast_mul, Nat.cast_ofNat]

/-- Settles O25: the two branches of APPEND, the second by `appendByte_bytes` and `appendByte_byteAt`. -/
theorem appendAddsOneByteAtTheTail : Obligations.AppendAddsOneByteAtTheTail := by
  intro s b hs
  refine ⟨exec_append_of_exceeds b, fun hfit => ?_⟩
  have hx : ¬ s.ExceedsCap (s.len.toNat + 1) := Nat.not_lt.2 hfit
  have hcap := bufCap_lt s
  have ⟨hwf, _, _, _, _⟩ := hs
  exact ⟨_, exec_append_of_fits b hx, ⟨rfl, rfl, rfl, rfl⟩, rfl, rfl, rfl, toNat_ofNat_of_fits hx, rfl,
    appendByte_bytes hs hx b, appendByte_byteAt s hwf (by omega) b⟩

/-- Settles O8: a step executes the presented or accepted word, and a word that decodes executes as its command. -/
theorem stepRunsTheDecodedCommand : Obligations.StepRunsTheDecodedCommand := by
  constructor
  · intro s c cs i hp hc hd
    exact ⟨(step_of_presenting hp hc).trans (execute_of_decodes hd _), ⟨rfl, rfl, rfl⟩, rfl, rfl, rfl, rfl⟩
  · intro s c n i hp hd
    exact (step_of_busy hp).trans (execute_of_decodes hd s)

/-- Settles O22: the target lies within the buffer, and is 0 when the sum is negative. -/
theorem seekNeverWrapsNorLeavesTheBuffer : Obligations.SeekNeverWrapsNorLeavesTheBuffer := by
  intro s t d hs h
  cases (exec_seek d s).symm.trans h
  constructor
  · exact (toNat_ofNat_seekTarget hs d).trans_le (seekTarget_le s d)
  · intro hneg
    rw [State.respond_bitIndex, State.setBitIndex_bitIndex, seekTarget_eq_zero hneg]
    rfl

/-- Settles O23, by INDEX's equation. -/
theorem indexReturnsTheBitIndex : Obligations.IndexReturnsTheBitIndex := exec_index

/-- Settles O24: CLEAR's equation, whose empty buffer is that of reset. -/
theorem clearEmptiesTheCursor : Obligations.ClearEmptiesTheCursor := by
  intro s
  refine ⟨exec_clear s, fun t h => ?_⟩
  cases (exec_clear s).symm.trans h
  exact ⟨rfl, rfl, rfl, rfl⟩

/-- Settles O41: the port samples `State.byteAt`. -/
theorem readbackPortShowsTheBuffer : Obligations.ReadbackPortShowsTheBuffer := by
  intro p s
  exact ⟨fun hp => sample_of_idle_or_resp hp _, fun c n hp => sample_of_busy hp _⟩

/-- Settles O42: the handshake outputs compare PHASE, and the status outputs are samples of the registers. -/
theorem handshakeAndStatusOutputs : Obligations.HandshakeAndStatusOutputs := by
  intro p s
  refine ⟨decide_eq_true_iff, decide_eq_true_iff, fun hp => ⟨if_pos hp, if_pos hp⟩, fun hp => ?_, fun c n hp => ?_⟩
  · exact ⟨sample_of_idle_or_resp hp _, sample_of_idle_or_resp hp _⟩
  · exact ⟨sample_of_busy hp _, sample_of_busy hp _⟩

end Sys2Proof.Machine
end

section
/-! SUPPORT. The family of 60_exceptions.md: the four outcomes, what an error changes, and the handshake. -/

namespace Sys2Proof.Machine

/-! ### The outcome of a command (60_exceptions.md R99, R101, R102) -/

theorem Status.code_inj {st st' : Status} : st.code = st'.code ↔ st = st' := by
  cases st <;> cases st' <;> decide

/-- The outcome a command ends in, as its cause in the state before it decides. -/
def State.outcome (s : State) : Instr → Status
  | .read ct => if s.Overreads ct then .overread else .ok
  | .write ct _ => if s.ExceedsCap (s.newLen ct) then .capacity else .ok
  | .seek _ => .ok
  | .index => .ok
  | .clear => .ok
  | .append _ => if s.ExceedsCap (s.len.toNat + 1) then .capacity else .ok

/-- A command answers the code of its outcome. -/
theorem exec_rspStatus {i : Instr} {s t : State} (h : exec i s = .next t) : t.rspStatus = (s.outcome i).code := by
  rcases exec_cases h with ⟨_, rfl, hc, rfl⟩ | ⟨_, rfl, hc, rfl⟩ | ⟨_, _, rfl, hc, rfl⟩ | ⟨_, _, rfl, hc, rfl⟩ |
    ⟨_, rfl, rfl⟩ | ⟨rfl, rfl⟩ | ⟨rfl, rfl⟩ | ⟨_, rfl, hc, rfl⟩ | ⟨_, rfl, hc, rfl⟩
  · rw [State.outcome, if_pos hc, State.raise_rspStatus]
  · rw [State.outcome, if_neg hc, State.respond_rspStatus]
  · rw [State.outcome, if_pos hc, State.raise_rspStatus]
  · rw [State.outcome, if_neg hc, State.respond_rspStatus]
  · rfl
  · rfl
  · rfl
  · rw [State.outcome, if_pos hc, State.raise_rspStatus]
  · rw [State.outcome, if_neg hc, State.respond_rspStatus]

/-- ILLEGAL is decoding's outcome, never a command's (60_exceptions.md R104). -/
theorem outcome_ne_illegal (s : State) (i : Instr) : s.outcome i ≠ .illegal := by
  cases i with
  | read ct => simp [State.outcome, ite_eq_iff]
  | write ct v => simp [State.outcome, ite_eq_iff]
  | seek d => exact nofun
  | index => exact nofun
  | clear => exact nofun
  | append b => simp [State.outcome, ite_eq_iff]

theorem outcome_eq_overread_iff {s : State} {i : Instr} :
    s.outcome i = .overread ↔ ∃ ct, i = .read ct ∧ s.Overreads ct := by
  cases i with
  | read ct => simp [State.outcome]
  | write ct v => simp [State.outcome, ite_eq_iff]
  | seek d => simp [State.outcome]
  | index => simp [State.outcome]
  | clear => simp [State.outcome]
  | append b => simp [State.outcome, ite_eq_iff]

theorem outcome_eq_capacity_iff {s : State} {i : Instr} : s.outcome i = .capacity ↔
    (∃ ct v, i = .write ct v ∧ s.ExceedsCap (s.newLen ct)) ∨ ∃ b, i = .append b ∧ s.ExceedsCap (s.len.toNat + 1) := by
  cases i with
  | read ct => simp [State.outcome, ite_eq_iff]
  | write ct v => simp [State.outcome]
  | seek d => simp [State.outcome]
  | index => simp [State.outcome]
  | clear => simp [State.outcome]
  | append b => simp [State.outcome]

/-- An accepted word raises, changing the response alone, or ends in OK (60_exceptions.md R103). -/
theorem execute_raises_or_ok {c : Word} {s t : State} (h : execute c s = .next t) :
    (∃ st, t = s.raise st) ∨ t.rspStatus = 0 := by
  obtain ⟨_, _, rfl⟩ | ⟨_, _, hi⟩ := execute_cases h
  · exact .inl ⟨.illegal, rfl⟩
  · exact exec_raises_or_ok hi

/-! ### Clock edges in IDLE and RESP (43_bit_cursor_engine.md R92, R94, 60_exceptions.md R114) -/

theorem edge_of_waiting {s : State} {p : PortIn} (lat : Nat) (hr : p.rst = false) (hp : s.phase = .idle)
    (hv : p.cmdValid = false) : edge lat p s = .next s.freeRsp := by
  simp [edge, hr, hp, hv]

theorem edge_of_holding {s : State} {p : PortIn} (lat : Nat) (hr : p.rst = false) (hp : s.phase = .resp)
    (hv : p.rspReady = false) : edge lat p s = .next s := by
  simp [edge, hr, hp, hv]

theorem edge_of_taking {s : State} {p : PortIn} (lat : Nat) (hr : p.rst = false) (hp : s.phase = .resp)
    (hv : p.rspReady = true) : edge lat p s = .next s.takeRsp := by
  simp [edge, hr, hp, hv]

/-! ### The statements -/

/-- Settles O31: an answer other than OK is a `raise`, and the step that takes it is `hostTake`. -/
theorem errorsChangeOnlyTheResponse : Obligations.ErrorsChangeOnlyTheResponse := by
  intro c s t h hst
  obtain ⟨st, rfl⟩ | hok := execute_raises_or_ok h
  · exact ⟨rfl, (s.raise st).hostTake, step_of_resp rfl, rfl, rfl, rfl, rfl⟩
  · exact absurd hok hst

/-- Settles O32: a word that does not decode is ILLEGAL alone, and one that decodes answers its command's outcome. -/
theorem everyWordEndsInOneOfFourOutcomes : Obligations.EveryWordEndsInOneOfFourOutcomes := by
  intro c s
  obtain ⟨t, ht⟩ := execute_total c s
  refine ⟨t, ht, execute_phase ht, ?_⟩
  obtain ⟨e, hd, rfl⟩ | ⟨i, hd, hi⟩ := execute_cases ht
  · rw [hd]
    exact ⟨Status.code_toNat_le _, ⟨fun _ => ⟨e, rfl⟩, fun _ => rfl⟩,
      iff_of_false (show Status.illegal.code ≠ 1 by decide) nofun,
      iff_of_false (show Status.illegal.code ≠ 3 by decide) nofun⟩
  · rw [exec_rspStatus hi]
    simp only [hd, Except.ok.injEq, reduceCtorEq, exists_false, iff_false]
    exact ⟨Status.code_toNat_le _, mt (Status.code_inj (st' := .illegal)).1 (outcome_ne_illegal s i),
      (Status.code_inj (st' := .overread)).trans outcome_eq_overread_iff,
      (Status.code_inj (st' := .capacity)).trans outcome_eq_capacity_iff⟩

/-- Settles O9: the word raises ILLEGAL, in the state it is executed in and in the one that accepts it. -/
theorem illegalWordIsAnsweredIllegal : Obligations.IllegalWordIsAnsweredIllegal := by
  intro s c e hd
  refine ⟨execute_of_illegal hd s, fun cs hp hc => ⟨(s.accept c 1).raise .illegal, ?_, ⟨rfl, rfl, rfl⟩, rfl, rfl, rfl⟩⟩
  exact (step_of_presenting hp hc).trans (execute_of_illegal hd _)

/-- Settles O43, by the edge of each of the four handshake cases. -/
theorem handshakeMovesOnlyThePhase : Obligations.HandshakeMovesOnlyThePhase := by
  intro s lat p hr
  refine ⟨fun hp hv => ?_, fun hp hv => ?_, edge_of_holding lat hr, fun hp hv => ?_⟩
  · exact ⟨_, edge_of_accepting lat hr hp hv, ⟨rfl, rfl, rfl⟩, rfl⟩
  · exact ⟨_, edge_of_waiting lat hr hp hv, ⟨rfl, rfl, rfl⟩, hp⟩
  · exact ⟨_, edge_of_taking lat hr hp hv, ⟨rfl, rfl, rfl⟩, rfl⟩

end Sys2Proof.Machine
end

section
/-! SUPPORT. The family of 70_reset_and_hazards.md: the edge with `rst = 1`. -/

namespace Sys2Proof.Machine

/-- Reset wins over the phase and every other input (70_reset_and_hazards.md R115, R116). -/
theorem edge_of_reset {p : PortIn} (lat : Nat) (hr : p.rst = true) (s : State) : edge lat p s = .next s.resetEdge :=
  if_pos hr

@[simp] theorem State.resetEdge_bytes (s : State) : s.resetEdge.bytes = [] := rfl

/-- No response is shown out of RESP (43_bit_cursor_engine.md R94). -/
theorem rspValid_of_not_resp {s : State} (h : s.phase ≠ .resp) (p : PortIn) : (outputs p s).rspValid = false :=
  decide_eq_false h

/-- Settles O40: the edge leaves `resetEdge`, whose PHASE is IDLE, so no response is presented. -/
theorem resetEdgeWinsAndAborts : Obligations.ResetEdgeWinsAndAborts := by
  intro s lat p hr
  have hnot : s.resetEdge.phase ≠ .resp := by simp
  exact ⟨s.resetEdge, edge_of_reset lat hr s, s.resetEdge_mem, s.resetEdge_len, s.resetEdge_bitIndex,
    s.resetEdge_phase, s.resetEdge_bytes, rspValid_of_not_resp hnot p⟩

end Sys2Proof.Machine
end

section
/-! SUPPORT. The words of 95_test_vectors.md: what they decode as. -/

namespace Sys2Proof

/-- A word spelled by a command in range decodes as that command. -/
theorem decode_of_encode_eq {c : Word} {i : Instr} (hwf : i.wf = true) (h : encode i = c) : decode c = .ok i :=
  h ▸ decode_encode hwf

/-- An `OP` no command has is illegal whatever the operand fields hold (30_encoding.md R56). -/
theorem decode_of_reservedOp {c : Word} (hrsv : rsvField c = 0) (hop : ∀ i : Instr, opField c ≠ i.op) :
    decode c = .error .reservedOp := by
  have hread : opField c ≠ 1 := hop (.read 1)
  have hwrite : opField c ≠ 2 := hop (.write 1 0)
  have hseek : opField c ≠ 3 := hop (.seek 0)
  have hindex : opField c ≠ 4 := hop .index
  have hclear : opField c ≠ 5 := hop .clear
  have happend : opField c ≠ 6 := hop (.append 0)
  simp only [decode, ne_eq, hrsv, not_true, hread, hwrite, hseek, hindex, hclear, happend, if_false]

/-- An APPEND word whose only fault is a bit above its byte is refused for it (30_encoding.md R57). -/
theorem decode_of_append_operandBits {c : Word} (hrsv : rsvField c = 0) (hop : opField c = 6) (hwm1 : wm1Field c = 0)
    (himm : immField c &&& 0xFFFFFF00 ≠ 0) : decode c = .error .operandBits := by
  simpa [decode, withZeroFields, hrsv, hop, hwm1] using himm

/-- The `OP` of a command is one of the six of 30_encoding.md R54, so never zero. -/
theorem Instr.op_ne_zero (i : Instr) : i.op ≠ 0 := by
  cases i <;> simp [Instr.op]

/-- Settles O6: each legal word is its command's encoding, the zero word has a reserved `OP`, and the last word sets
`IMM32[8]` of an APPEND. -/
theorem specWordsDecodeAsWritten : Obligations.SpecWordsDecodeAsWritten := by
  refine ⟨?read, ?write, ?seek, ?index, ?clear, ?append, ?zero, ?appendBits⟩
  case read => exact decode_of_encode_eq rfl (by decide)
  case write => exact decode_of_encode_eq rfl (by decide)
  case seek => exact decode_of_encode_eq rfl (by decide)
  case index => exact decode_of_encode_eq rfl (by decide)
  case clear => exact decode_of_encode_eq rfl (by decide)
  case append => exact decode_of_encode_eq rfl (by decide)
  case zero => exact decode_of_reservedOp (by decide) fun i h => i.op_ne_zero h.symm
  case appendBits => exact decode_of_append_operandBits (by decide) (by decide) (by decide) (by decide)

end Sys2Proof
end
